-- ==== Sys2Proof/Word.lean ====
section
/-! DEFINITION. The two word types of the block: the 32-bit coordinate lane (rule R10) and the 64-bit index
(rule R21). Bit 0 is the least significant bit and every value is unsigned (rule R15). -/

namespace Sys2Proof

/-- CW = 32 bits: a coordinate lane, a coordinate register `x[i]`, and the scalars `t`, `Q`, `P`
(rules R10, R22, R23, R24). -/
abbrev Word := BitVec 32

/-- IW = 64 bits: the HilbertIndex, the scalar `idx` and the response field IDX (rules R21, R25, R80). -/
abbrev Index := BitVec 64

end Sys2Proof
end

