-- ==== Sys2Proof/Config.lean ====
section
/-! DEFINITION. What one block fixes for its whole life, and the values the spec leaves free.
DMAX and DEPTH are the spec's OPEN parameters (rules R11, R12, R37, R210): every definition that
depends on one takes `Config.Params` as an argument, and the machine behind the fixed names (`exec`,
`step`) is the one with `Config.params`.  The free values are opaque constants: nothing can be proved
about what they are. -/

namespace Sys2Proof.Config

/-- The open parameters of one block (rule R12).  LAT, the third one, is timing: no rule depends on it. -/
structure Params where
  /-- DMAX, the number of coordinate lanes and the largest DIM (rule R11). -/
  dmax : Nat
  /-- DEPTH, how many transactions may be in flight (rule R210). -/
  depth : Nat
deriving DecidableEq, Repr

/-- `3 ≤ DMAX ≤ 63` (rule R11) and DEPTH is "at least 1" (rule R210). -/
abbrev Params.wf (c : Params) : Prop := 3 ≤ c.dmax ∧ c.dmax ≤ 63 ∧ 1 ≤ c.depth

/-- DEPTH minus one.  The spec fixes DEPTH only as "at least 1 and otherwise unspecified" (rule R210), so
nothing is known of this number (DESIGN CHOICE, log entry 3). -/
opaque depthLess1 : Nat

/-- The value of DMAX behind the fixed names: the spec's default, 3 (rule R11; DESIGN CHOICE, log entry 2). -/
def dmax : Nat := 3

/-- The block behind `exec`, `step` and `core`. -/
def params : Params := { dmax := dmax, depth := depthLess1 + 1 }

/-- `UNSPECIFIED_64` (rules R16, R81, U1): the IDX of a response that carries no index, and the value of the
register `idx` before PACK writes it.  A fresh draw for every value of the draw counter (log entries 5, 6). -/
opaque unspec64 : Nat → Index

/-- What a 32-bit working register (`t`, `Q`, `P`) holds before its first write in a transaction
(rules R38, R39; log entry 6). -/
opaque unspec32 : Nat → Word

/-- What the lane counter of EWR holds before its first write in a transaction (rule R26; log entry 6). -/
opaque unspec6 : Nat → BitVec 6

end Sys2Proof.Config
end

