-- ==== Sys2Proof/Syntax.lean ====
section
/-! DEFINITION. The commands and stage operations of the block (rule R78, `opcode_table.json`), the stage
numbers (rule R26) and what the request channel carries (rules R71, R73). -/

namespace Sys2Proof

/-- STG, where a transaction is (rule R26).  The numbers 6 and 7 never occur (rule R79 (d)), so they are no
constructors. -/
inductive Stage where
  | val
  | ewr
  | gray
  | fcor
  | pack
  | done
deriving DecidableEq, Repr

/-- One request as the channel carries it: the signal `req_op` and the signal `req_data`, the latter cut into
DMAX words of 32 bits, word `i` being `req_data[32*i+31 : 32*i]` (rules R71, R72, R75). -/
structure Request where
  op   : BitVec 1
  data : List Word
deriving DecidableEq, Repr

/-- The seven rows of `opcode_table.json`: two host commands, selected by `req_op`, and five stage operations
of a HIDX transaction, selected by its STG (rule R78). -/
inductive Instr where
  /-- HIDX: one point, DMAX lanes, lane `i` = coordinate `i` (rules R75, R140). -/
  | hidx (lanes : List Word)
  /-- CFGWR: the fields ORDER and DIM (rules R76, R160). -/
  | cfgwr (order dim : BitVec 6)
  /-- VAL, stage 0 (rule R144). -/
  | val
  /-- EWR, stage 1 (rule R100). -/
  | ewr
  /-- GRAY, stage 2 (rule R110). -/
  | gray
  /-- FCOR, stage 3 (rule R120). -/
  | fcor
  /-- PACK, stage 4 (rule R130). -/
  | pack
deriving DecidableEq, Repr

end Sys2Proof
end

