-- ==== Sys2Proof/WellFormed.lean ====
section
/-! DEFINITION. Which requests and commands a block with DMAX lanes can carry at all (rule R72: one request
length, `1 + 32*DMAX` bits). -/

namespace Sys2Proof

/-- A request of a block with `dmax` lanes has exactly `dmax` data words (rule R72). -/
def Request.wf (dmax : Nat) (r : Request) : Bool := r.data.length == dmax

/-- A HIDX carries exactly `dmax` lanes (rule R75); the other operations have no operand that could be wrong:
every 6-bit ORDER and DIM can be written (rule R30). -/
def Instr.wf (dmax : Nat) : Instr → Bool
  | .hidx lanes => lanes.length == dmax
  | .cfgwr _ _ => true
  | .val => true
  | .ewr => true
  | .gray => true
  | .fcor => true
  | .pack => true

end Sys2Proof
end

