-- ==== Sys2Proof/Decode.lean ====
section
/-! DEFINITION. The decoder, total on every request and every stage number and rejecting by name, and after it
the encoder, both written from the formats of `30_encoding.md` (rules R73 to R78), then the assembler's
spellings (rules R84, R85). -/

namespace Sys2Proof

/-- Why a word is no instruction of the block. -/
inductive DecodeError where
  /-- The number has a bit above the request's `1 + 32*DMAX` bits, or above STG's 3 bits (rule R72). -/
  | tooWide
  /-- The request has another number of lanes than the block (rule R72). -/
  | wrongLanes
  /-- STG 5 (DONE) is no operation; 6 and 7 never occur (rules R26, R79 (d), U13). -/
  | noSuchStage
deriving DecidableEq, Repr

/-! ## Request words -/

/-- REQ as a number, read as the two signals (rule R73): `req_op` is bit `32*DMAX`, data word `i` is bits
`[32*i+31 : 32*i]` (rule R75). -/
def Request.ofNat (dmax w : Nat) : Request :=
  { op := BitVec.ofNat 1 (w >>> (32 * dmax))
    data := (List.range dmax).map fun i => BitVec.ofNat 32 (w >>> (32 * i)) }

/-- `req_data` as a number: lane 0 in the least significant 32 bits (rule R75). -/
def dataToNat : List Word → Nat
  | [] => 0
  | d :: ds => d.toNat + 2 ^ 32 * dataToNat ds

/-- `REQ = req_op * 2^(32*DMAX) + req_data` (rule R73). -/
def Request.toNat (r : Request) : Nat :=
  r.op.toNat * 2 ^ (32 * r.data.length) + dataToNat r.data

/-- Format C: ORDER is `req_data[5:0]` (rule R76). -/
def orderField (data : List Word) : BitVec 6 := (data.getD 0 0).extractLsb' 0 6

/-- Format C: DIM is `req_data[13:8]` (rule R76). -/
def dimField (data : List Word) : BitVec 6 := (data.getD 0 0).extractLsb' 8 6

/-- `req_op` 0 selects HIDX, 1 selects CFGWR; both values are used (rule R74). -/
def decodeRequest (dmax : Nat) (r : Request) : Except DecodeError Instr :=
  if r.data.length ≠ dmax then .error .wrongLanes
  else if r.op = 0#1 then .ok (.hidx r.data)
  else .ok (.cfgwr (orderField r.data) (dimField r.data))

/-- A request given as the number REQ (rule R73). -/
def decodeReqWord (dmax w : Nat) : Except DecodeError Instr :=
  if 2 ^ (1 + 32 * dmax) ≤ w then .error .tooWide
  else decodeRequest dmax (Request.ofNat dmax w)

/-! ## Stage numbers -/

/-- STG in 3 bits: 0 VAL, 1 EWR, 2 GRAY, 3 FCOR, 4 PACK, 5 DONE (rule R26). -/
def Stage.code : Stage → BitVec 3
  | .val => 0
  | .ewr => 1
  | .gray => 2
  | .fcor => 3
  | .pack => 4
  | .done => 5

/-- The stage operation that a stage number selects (rule R78). -/
def decodeStage (n : BitVec 3) : Except DecodeError Instr :=
  if n = 0 then .ok .val
  else if n = 1 then .ok .ewr
  else if n = 2 then .ok .gray
  else if n = 3 then .ok .fcor
  else if n = 4 then .ok .pack
  else .error .noSuchStage

/-- A stage number given as a number. -/
def decodeStageWord (w : Nat) : Except DecodeError Instr :=
  if 8 ≤ w then .error .tooWide else decodeStage (BitVec.ofNat 3 w)

/-! ## The rows of `opcode_table.json` -/

/-- Whether a row of `nbits` bits is a stage row (3 bits, one byte) or a request row (97 bits at DMAX = 3). -/
def isStageRow (nbits : Nat) : Bool := decide (nbits ≤ 8)

/-- Decoding the number of a row: a stage row or a request row. -/
def decodeWord (dmax nbits w : Nat) : Except DecodeError Instr :=
  if isStageRow nbits then decodeStageWord w else decodeReqWord dmax w

/-- The instruction of a table word at the default DMAX (log entry 2). -/
def decodeTableWord (nbits w : Nat) : Option Instr :=
  (decodeWord Config.dmax nbits w).toOption

/-! ## The encoder -/

/-- The first data word of format C, every ignored bit 0 (rules R76, R84). -/
def cfgWord (order dim : BitVec 6) : Word :=
  order.setWidth 32 ||| (dim.setWidth 32 <<< (8 : Nat))

/-- What an instruction is on its way into the machine: a request, or the stage number of a transaction. -/
inductive Code where
  | request (r : Request)
  | stage (n : BitVec 3)
deriving DecidableEq, Repr

/-- Formats P and C and the stage numbers (rules R75, R76, R78). -/
def encode (dmax : Nat) : Instr → Code
  | .hidx lanes => .request { op := 0#1, data := lanes }
  | .cfgwr order dim => .request { op := 1#1, data := cfgWord order dim :: List.replicate (dmax - 1) 0 }
  | .val => .stage (Stage.code .val)
  | .ewr => .stage (Stage.code .ewr)
  | .gray => .stage (Stage.code .gray)
  | .fcor => .stage (Stage.code .fcor)
  | .pack => .stage (Stage.code .pack)

/-- Decoding what `encode` answers. -/
def decode (dmax : Nat) : Code → Except DecodeError Instr
  | .request r => decodeRequest dmax r
  | .stage n => decodeStage n

/-- The number `opcode_table.json` gives an instruction: REQ, or STG. -/
def encodeWord (dmax : Nat) (i : Instr) : Nat :=
  match encode dmax i with
  | .request r => r.toNat
  | .stage n => n.toNat

/-- How many bits that number has: `1 + 32*DMAX` (rule R72) or 3 (rule R26). -/
def encodedBits (dmax : Nat) (i : Instr) : Nat :=
  match encode dmax i with
  | .request _ => 1 + 32 * dmax
  | .stage _ => 3

/-! ## Assembler spellings -/

/-- `CFGWR order, dim` (rule R84). -/
def Asm.cfgwr (order dim : BitVec 6) : Instr := .cfgwr order dim

/-- `HIDX x0, …, x(k-1)`: the lanes from `k` on are 0 (rule R84). -/
def Asm.hidx (dmax : Nat) (xs : List Word) : Instr :=
  .hidx (xs ++ List.replicate (dmax - xs.length) 0)

/-- The request of a host command; `none` for a stage operation, which no request selects (rule R78). -/
def Asm.request (dmax : Nat) (i : Instr) : Option Request :=
  match encode dmax i with
  | .request r => some r
  | .stage _ => none

/-- The pseudo-instruction `HILBERT_INDEX (x0, …), order, dim`: CFGWR then HIDX (rule R85). -/
def Asm.hilbertIndex (dmax : Nat) (xs : List Word) (order dim : BitVec 6) : List Instr :=
  [Asm.cfgwr order dim, Asm.hidx dmax xs]

/-- The requests the pseudo-instruction expands to. -/
def Asm.hilbertRequests (dmax : Nat) (xs : List Word) (order dim : BitVec 6) : List Request :=
  (Asm.hilbertIndex dmax xs order dim).filterMap (Asm.request dmax)

end Sys2Proof
end

