-- ==== Sys2Proof/Machine/State.lean ====
section
/-! DEFINITION. The state of the block and of the host at its two channels, as plain data (rules R20 to R40),
the outcomes a step can have, and the state after reset.  The block has no memory, no program counter, no
privilege and no interrupt (rules R26, R34, R35, R180, R190). -/

namespace Sys2Proof.Machine

/-- A response, format S: IDX (64 bits), ERR (3 bits: CE, OOR, UD from bit 0 up), OORLANES (DMAX bits, lane 0
first in the list) (rules R28, R29, R80). -/
structure Response where
  idx : Index
  err : BitVec 3
  oor : List Bool
deriving DecidableEq, Repr

/-- The working copy of one HIDX transaction (rule R20 (b)). -/
structure Work where
  /-- `x[0]` to `x[DMAX-1]` (rule R22). -/
  x    : List Word
  /-- The exchange term of EWR and the correction term of FCOR (rule R23). -/
  t    : Word
  /-- The round mask (rule R24). -/
  q    : Word
  /-- `Q - 1` (rule R24). -/
  p    : Word
  /-- The index under construction (rule R25). -/
  idx  : Index
  /-- CFG.ORDER as sampled at acceptance (rule R27). -/
  ord  : BitVec 6
  /-- CFG.DIM as sampled at acceptance (rule R27). -/
  dim  : BitVec 6
  /-- STG (rule R26). -/
  stg  : Stage
  /-- The lane counter `i` of EWR (rule R26). -/
  lane : BitVec 6
  /-- ERR (rule R28). -/
  err  : BitVec 3
  /-- OORLANES, lane 0 first (rule R29). -/
  oor  : List Bool
deriving DecidableEq, Repr

/-- A transaction in flight: accepted, its response not yet delivered (rule R36).  A HIDX carries its working
copy and, once STG is DONE, its complete response (rules R20, R26); a CFGWR has no working copy and its
response is complete from the start (rule R160). -/
inductive Txn where
  | hidx (work : Work) (rsp : Option Response)
  | cfgwr (rsp : Response)
deriving DecidableEq, Repr

/-- What happens next.  The spec gives no event a time and no order but request order (rules R13, R57, R210),
so the choice is data that the step reads (DESIGN CHOICE, log entry 4). -/
inductive Choice where
  /-- `req_valid` and `req_ready` meet: the request at the head of the host's stream is accepted (rule R71). -/
  | accept
  /-- The `k`-th oldest transaction in flight performs its next stage (rules R26, R150). -/
  | advance (k : Nat)
  /-- `rsp_valid` and `rsp_ready` meet: the oldest response is delivered (rules R71, R82). -/
  | deliver
  /-- The host drives the input `rst` to this level (rules R71, R200). -/
  | rst (level : Bool)
deriving DecidableEq, Repr

/-- The block, the host's side of the channels, and the model's own bookkeeping. -/
structure State where
  /-- CFG.ORDER (rule R31). -/
  cfgOrder  : BitVec 6
  /-- CFG.DIM (rule R32). -/
  cfgDim    : BitVec 6
  /-- The transactions in flight, oldest first (rule R36). -/
  inflight  : List Txn
  /-- The level of the input `rst` (rules R71, R200). -/
  rst       : Bool
  /-- HOST: the requests it has still to make, in request order; the head is what `req_op` and `req_data` show,
  and `req_valid` is 1 when there is one (rules R37, R71; log entry 4). -/
  reqs      : List Request
  /-- HOST: the responses delivered to it, oldest first (rules R71, R82; log entry 4). -/
  delivered : List Response
  /-- MODEL: what happens next, first choice first; when empty, the sequencer's own order (log entry 4). -/
  sched     : List Choice
  /-- MODEL: which transaction in flight the stage operation now runs on (log entry 4). -/
  cur       : Nat
  /-- MODEL: how many free values have been drawn (log entries 5, 6). -/
  draws     : Nat
deriving DecidableEq, Repr

/-- The machine has no fault: "There is no other error", and CE, OOR and UD are responses, not stops
(rules R170, R174, R177, R207).  So there is no constructor. -/
inductive Fault
deriving DecidableEq, Repr

/-- Why a step can have no next state.  None of the last four can arise in a state that meets the model's
invariant (`Safety.lean`). -/
inductive Refusal where
  /-- Raised by an arm of `exec` whose instruction has no meaning yet; no arm does.  Safe: the run stops. -/
  | notModelled (mnemonic : String)
  /-- Raised by the sequencer for a request whose number of lanes is not DMAX, which the channel cannot carry
  (rule R72).  Safe: the run stops. -/
  | malformedRequest
  /-- Raised by a stage operation when the transaction whose turn it is does not exist or is complete: there is
  no working copy to work on (rule R39).  Safe: the run stops. -/
  | noTransaction
  /-- Raised by a stage operation when the transaction is at another stage: "No stage can be skipped, repeated or
  reordered" (rule R145).  Safe: the run stops. -/
  | stageOutOfOrder
  /-- Raised by a stage operation outside the valid domain: "a model need not define PACK outside the
  precondition, and should refuse to rather than pick a value" (rules R134, U4).  Safe: the run stops. -/
  | outsideValidDomain
deriving DecidableEq, Repr

/-- Right after reset (rule R39): CFG.ORDER = 0, CFG.DIM = 0, no transaction in flight, no response offered,
`rst` released.  The host has made and received nothing; the model's own fields start at 0 and empty
(DESIGN CHOICE, log entry 7). -/
def State.reset : State :=
  { cfgOrder := 0, cfgDim := 0, inflight := [], rst := false,
    reqs := [], delivered := [], sched := [], cur := 0, draws := 0 }

end Sys2Proof.Machine
end

