-- ==== Sys2Proof/Machine/Operands.lean ====
section
/-! DEFINITION. The operand forms: a coordinate lane of the working copy, a bit of a lane or of the index, a
field of the request, and the response as one word (rules R16, R22, R77, R80). -/

namespace Sys2Proof.Machine

/-- Read of `x[i]` (rule R16).  In the valid domain `i < DIM ≤ DMAX` lanes exist, so the 0 beyond the end is
never read by a stage (log entry 9). -/
def laneAt (x : List Word) (i : Nat) : Word := x.getD i 0

/-- Write of `x[i]` (rule R16); there is no lane beyond the end. -/
def setLane (x : List Word) (i : Nat) (v : Word) : List Word := x.set i v

/-- `idx[k] <- b`, one bit (rule R130). -/
def setIdxBit (v : Index) (k : Nat) (b : Bool) : Index :=
  if b then v ||| (1#64 <<< k) else v &&& ~~~(1#64 <<< k)

/-- A list of bits as a number, the first the least significant: OORLANES with lane 0 at bit 0 (rule R80). -/
def bitsToNat : List Bool → Nat
  | [] => 0
  | b :: bs => b.toNat + 2 * bitsToNat bs

/-- `RSP = rsp_oor * 2^67 + rsp_err * 2^64 + rsp_idx` (rule R80). -/
def Response.toNat (r : Response) : Nat :=
  bitsToNat r.oor * 2 ^ 67 + r.err.toNat * 2 ^ 64 + r.idx.toNat

/-- RSP[69:64] at DMAX = 3, and the same bits for any DMAX: OORLANES above UD, OOR, CE (rule R80). -/
def Response.flagsNat (r : Response) : Nat := r.toNat / 2 ^ 64

/-- CE, bit 0 of ERR (rule R28). -/
def ceBit (e : BitVec 3) : Bool := e.getLsbD 0

/-- OOR, bit 1 of ERR (rule R28). -/
def oorBit (e : BitVec 3) : Bool := e.getLsbD 1

/-- UD, bit 2 of ERR (rule R28). -/
def udBit (e : BitVec 3) : Bool := e.getLsbD 2

/-- The complete response of a transaction, if it has one (rules R26, R36). -/
def Txn.response : Txn → Option Response
  | .hidx _ rsp => rsp
  | .cfgwr rsp => some rsp

end Sys2Proof.Machine
end

