-- ==== Sys2Proof/Machine/Flags.lean ====
section
/-! DEFINITION. The error flags: the configuration check CFGERR (rule R33), the error vector ERR (rule R28), the
mask OORLANES (rules R29, R144), and the domain in which the stages are defined (rules R9, R143, U4). -/

namespace Sys2Proof.Machine

/-- `CE = (ORDER == 0) OR (DIM * ORDER ≥ 64)`, the product exact (rules R9, R33). -/
def cfgCE (order dim : BitVec 6) : Bool :=
  order == 0 || decide (64 ≤ dim.toNat * order.toNat)

/-- `UD = (DIM < 2) OR (DIM > DMAX)` (rule R33). -/
def cfgUD (dmax : Nat) (dim : BitVec 6) : Bool :=
  decide (dim.toNat < 2) || decide (dmax < dim.toNat)

/-- ERR from its three bits: ERR = CE + 2*OOR + 4*UD (rule R28). -/
def errVec (ud oor ce : Bool) : BitVec 3 :=
  BitVec.ofNat 3 (ce.toNat + 2 * oor.toNat + 4 * ud.toNat)

/-- The ERR of a configuration, (UD, 0, CE): both bits when both apply (rules R33, R143, R160, R163). -/
def cfgErr (dmax : Nat) (order dim : BitVec 6) : BitVec 3 :=
  errVec (cfgUD dmax dim) false (cfgCE order dim)

/-- The ERR of OutOfRangeCoordinate alone, 0b010 (rules R144, R172). -/
def errOOR : BitVec 3 := errVec false true false

/-- OORLANES all 0 (rules R81, R141). -/
def noOor (dmax : Nat) : List Bool := List.replicate dmax false

/-- `(x >> ORDER) != 0`, which is `x ≥ 2^ORDER`; all 32 bits take part (rule R144). -/
def outOfRange (ord : BitVec 6) (v : Word) : Bool := v >>> ord.toNat != 0

/-- OORLANES as VAL leaves it: bit `i` is 1 for an offending lane `i < DIM`, else 0; every lane is examined
(rule R144). -/
def oorMask (w : Work) : List Bool :=
  (List.range w.oor.length).map fun i =>
    decide (i < w.dim.toNat) && outOfRange w.ord (laneAt w.x i)

/-- The sampled configuration is valid for the lanes the working copy has: `1 ≤ ORDER`, `2 ≤ DIM ≤ DMAX`,
`DIM * ORDER < 64` (rules R9, R143). -/
def configValid (w : Work) : Bool := cfgErr w.x.length w.ord w.dim == 0

/-- Every coordinate is below `2^ORDER`: the point is valid (rules R19, R144). -/
def pointValid (w : Work) : Bool :=
  (List.range w.dim.toNat).all fun i => !outOfRange w.ord (laneAt w.x i)

/-- The domain of the transform stages: a valid configuration and a valid point (rule R143, U4, C5). -/
def stageDomain (w : Work) : Bool := configValid w && pointValid w

end Sys2Proof.Machine
end

