-- ==== Sys2Proof/Machine/Ops.lean ====
section
/-! DEFINITION. The shared operations over the state: drawing a free value, entering a transaction, writing the
working copy whose turn it is, raising an error (the block's only exception entry, rule R176; there is no
return from it, rule R177), delivering a response, reset, and the signals of the channels (rule R71). -/

namespace Sys2Proof.Machine

/-! ## Free values -/

/-- `n` free values have been used up (log entries 5, 6). -/
def State.drawn (s : State) (n : Nat) : State := { s with draws := s.draws + n }

/-! ## Transactions in flight -/

/-- A new transaction takes its place behind all others: request order (rules R57, R82). -/
def State.enter (s : State) (t : Txn) : State :=
  { s with inflight := s.inflight ++ [t], cur := s.inflight.length }

/-- The transaction whose turn it is becomes `t`; no other changes (rule R141). -/
def State.put (s : State) (t : Txn) : State :=
  { s with inflight := s.inflight.set s.cur t }

/-- CFG is written, both fields at once (rules R55, R160). -/
def State.setCfg (s : State) (order dim : BitVec 6) : State :=
  { s with cfgOrder := order, cfgDim := dim }

/-- The working copy a HIDX creates (rule R141): CFG sampled into `ord` and `dim`, every lane copied, ERR and
OORLANES cleared, STG 0.  `t`, `Q`, `P`, `idx` and the lane counter are unwritten: free values (rule R38, log
entry 6). -/
def newWork (dmax : Nat) (lanes : List Word) (s : State) : Work :=
  { x := lanes
    t := Config.unspec32 s.draws
    q := Config.unspec32 (s.draws + 1)
    p := Config.unspec32 (s.draws + 2)
    idx := Config.unspec64 (s.draws + 3)
    ord := s.cfgOrder
    dim := s.cfgDim
    stg := .val
    lane := Config.unspec6 (s.draws + 4)
    err := 0
    oor := noOor dmax }

/-- How many free values `newWork` uses. -/
def newWorkDraws : Nat := 5

/-! ## Errors and responses -/

/-- Error entry, the ONE operation (rule R176): the ERR bits are set, OORLANES stays as VAL left it (0 for a
configuration error), IDX is unspecified, STG becomes DONE and the response keeps its place in request order.
Nothing is saved and CFG is not touched. -/
def State.raise (s : State) (w : Work) (e : BitVec 3) : State :=
  (s.put (.hidx { w with err := e, stg := .done }
    (some { idx := Config.unspec64 s.draws, err := e, oor := w.oor }))).drawn 1

/-- The end of a transaction without error (rules R130, R145): IDX = `idx`, ERR and OORLANES as they stand
(0), STG DONE. -/
def State.respond (s : State) (w : Work) : State :=
  s.put (.hidx { w with stg := .done } (some { idx := w.idx, err := w.err, oor := w.oor }))

/-- The response of a CFGWR (rule R160): no index, (UD, 0, CE) of the new pair, OORLANES 0. -/
def cfgwrResponse (dmax : Nat) (order dim : BitVec 6) (s : State) : Response :=
  { idx := Config.unspec64 s.draws, err := cfgErr dmax order dim, oor := noOor dmax }

/-- The host takes the oldest response, if it is complete; nothing else changes (rules R55, R57 (4), R82). -/
def State.deliver (s : State) : State :=
  match s.inflight with
  | [] => s
  | t :: rest =>
    match t.response with
    | none => s
    | some r => { s with inflight := rest, delivered := s.delivered ++ [r] }

/-! ## Reset -/

/-- `rst` is asserted: CFG 0 and 0, every transaction in flight discarded without a response
(rules R39, R200, R201). -/
def State.assertRst (s : State) : State :=
  { s with cfgOrder := 0, cfgDim := 0, inflight := [], cur := 0, rst := true }

/-- `rst` is released: the block stays as it is, in its reset state (rule R200). -/
def State.releaseRst (s : State) : State := { s with rst := false }

/-! ## Signals of the channels (rule R71) -/

/-- There is no room for one more transaction (rules R206 (c), R210). -/
def State.full (c : Config.Params) (s : State) : Bool := decide (c.depth ≤ s.inflight.length)

/-- `req_valid`. -/
def State.reqValid (s : State) : Bool := !s.reqs.isEmpty

/-- `req_ready`: 0 while `rst` is asserted (rule R201) and while the block is full (rule R206 (c)). -/
def State.reqReady (c : Config.Params) (s : State) : Bool := !s.rst && !s.full c

/-- `rsp_idx`, `rsp_err` and `rsp_oor` while `rsp_valid` is 1; responses are offered in request order
(rules R57 (4), R71, U10). -/
def State.rspOffered (s : State) : Option Response := s.inflight.head?.bind Txn.response

/-- `rsp_valid`. -/
def State.rspValid (s : State) : Bool := s.rspOffered.isSome

/-! ## Running one stage -/

/-- A stage operation runs on the working copy of the transaction whose turn it is, at its own stage and in its
own domain only (rules R134, R143, R145, U4). -/
def runStage (st : Stage) (domain : Work → Bool) (f : Work → State → State) (s : State) :
    Host.Outcome State Fault Refusal :=
  match s.inflight[s.cur]? with
  | some (.hidx w none) =>
    if w.stg ≠ st then .refused .stageOutOfOrder
    else if domain w = false then .refused .outsideValidDomain
    else .next (f w s)
  | _ => .refused .noTransaction

/-- The working copy is handed to the next stage (rule R26). -/
def State.handOver (s : State) (w : Work) : State := s.put (.hidx w none)

end Sys2Proof.Machine
end

