-- ==== Sys2Proof/Machine/Commands.lean ====
section
/-! DEFINITION. The two host commands, HIDX (rules R140 to R143) and CFGWR (rules R160 to R163), at the event of
their acceptance; for any parameters first, then for the block behind the fixed names. -/

namespace Sys2Proof.Machine

/-- HIDX at acceptance: the working copy (rule R141), then the configuration check (rule R143).  VAL and the four
transform stages are steps of their own (rule R150). -/
def execHidxAt (c : Config.Params) (lanes : List Word) (s : State) :
    Host.Outcome State Fault Refusal :=
  let w := newWork c.dmax lanes s
  let s1 := (s.enter (.hidx w none)).drawn newWorkDraws
  let e := cfgErr c.dmax w.ord w.dim
  if e ≠ 0 then .next (s1.raise w e) else .next s1

/-- CFGWR: both fields are written, always, and the response is complete at once (rules R160, R161). -/
def execCfgwrAt (c : Config.Params) (order dim : BitVec 6) (s : State) :
    Host.Outcome State Fault Refusal :=
  .next (((s.setCfg order dim).enter (.cfgwr (cfgwrResponse c.dmax order dim s))).drawn 1)

def execHidx (lanes : List Word) (s : State) : Host.Outcome State Fault Refusal :=
  execHidxAt Config.params lanes s

def execCfgwr (order dim : BitVec 6) (s : State) : Host.Outcome State Fault Refusal :=
  execCfgwrAt Config.params order dim s

end Sys2Proof.Machine
end

