-- ==== Sys2Proof/Machine/Ewr.lean ====
section
/-! DEFINITION. EWR, the excess-work remover, stage 1 (rules R100 to R107). -/

namespace Sys2Proof.Machine

/-- `Q <- 1 << (ORDER - 1)`, shared by EWR and FCOR (rules R100, R120). -/
def startMask (ord : BitVec 6) : Word := 1#32 <<< (ord.toNat - 1)

/-- One visit of lane `i` (rule R100): bit `Q` set, invert the low bits of `x[0]`; else exchange the low bits of
`x[0]` and `x[i]` through `t`. -/
def ewrVisit (w : Work) (i : Nat) : Work :=
  if laneAt w.x i &&& w.q ≠ 0 then
    { w with lane := BitVec.ofNat 6 i, x := setLane w.x 0 (laneAt w.x 0 ^^^ w.p) }
  else
    let t := (laneAt w.x 0 ^^^ laneAt w.x i) &&& w.p
    let x1 := setLane w.x 0 (laneAt w.x 0 ^^^ t)
    { w with lane := BitVec.ofNat 6 i, t := t, x := setLane x1 i (laneAt x1 i ^^^ t) }

/-- One round: `P <- Q - 1`, the lanes `0, 1, …, DIM-1` one after the other, `Q <- Q >> 1`
(rules R100, R102). -/
def ewrRound (w : Work) : Work :=
  let v := (List.range w.dim.toNat).foldl ewrVisit { w with p := w.q - 1 }
  { v with q := v.q >>> (1 : Nat) }

/-- `while Q > 1`, at most `fuel` rounds.  `Q` has 32 bits and is halved each round, so 32 are enough. -/
def ewrRounds : Nat → Work → Work
  | 0, w => w
  | fuel + 1, w => if 1 < w.q then ewrRounds fuel (ewrRound w) else w

/-- EWR (rule R100). -/
def ewr (w : Work) : Work :=
  { ewrRounds 32 { w with q := startMask w.ord } with stg := .gray }

def execEwr (s : State) : Host.Outcome State Fault Refusal :=
  runStage .ewr stageDomain (fun w s => s.handOver (ewr w)) s

/-! ## The finer steps (rules R26, R150)

Inside EWR the position is given by `Q` and the lane counter.  One lane visit as a step of its own; the stage is
`(ORDER-1) * DIM` of them (rule R103). -/

/-- The position at the start of EWR: the first mask, lane 0. -/
def ewrStart (w : Work) : Work := { w with q := startMask w.ord, lane := 0 }

/-- One lane visit, at the position the working copy holds, and the move to the next position. -/
def ewrStep (w : Work) : Work :=
  let v := ewrVisit { w with p := w.q - 1 } w.lane.toNat
  if w.lane.toNat + 1 < w.dim.toNat then { v with lane := w.lane + 1 }
  else { v with lane := 0, q := w.q >>> (1 : Nat) }

/-- `n` lane visits. -/
def ewrSteps : Nat → Work → Work
  | 0, w => w
  | n + 1, w => ewrSteps n (ewrStep w)

end Sys2Proof.Machine
end

