-- ==== Sys2Proof/Machine/Fcor.lean ====
section
/-! DEFINITION. FCOR, the final correction, stage 3 (rules R120 to R125). -/

namespace Sys2Proof.Machine

/-- One round of the first phase: `t <- t XOR (Q - 1)` if bit `Q` of the last coordinate is set, then
`Q <- Q >> 1` (rule R120). -/
def fcorRound (w : Work) : Work :=
  let t := if laneAt w.x (w.dim.toNat - 1) &&& w.q ≠ 0 then w.t ^^^ (w.q - 1) else w.t
  { w with t := t, q := w.q >>> (1 : Nat) }

/-- `while Q > 1`, at most `fuel` rounds, the same schedule as EWR's (rule R125). -/
def fcorRounds : Nat → Work → Work
  | 0, w => w
  | fuel + 1, w => if 1 < w.q then fcorRounds fuel (fcorRound w) else w

/-- The second phase: `t` is XORed into every lane `i < DIM` (rules R120, R122). -/
def fcorLanes (dim : Nat) (t : Word) (x : List Word) : List Word :=
  (List.range dim).foldl (fun x i => setLane x i (laneAt x i ^^^ t)) x

/-- FCOR (rule R120): all of `t` first, then the lanes (rule R122). -/
def fcor (w : Work) : Work :=
  let v := fcorRounds 32 { w with t := 0, q := startMask w.ord }
  { v with x := fcorLanes v.dim.toNat v.t v.x, stg := .pack }

def execFcor (s : State) : Host.Outcome State Fault Refusal :=
  runStage .fcor stageDomain (fun w s => s.handOver (fcor w)) s

end Sys2Proof.Machine
end

