-- ==== Sys2Proof/Machine/Gray.lean ====
section
/-! DEFINITION. GRAY, the Gray encoder, stage 2 (rules R110 to R113). -/

namespace Sys2Proof.Machine

/-- `x[i] <- x[i] XOR x[i-1]`, the predecessor as this pass already wrote it (rules R110, R111). -/
def grayUpdate (x : List Word) (i : Nat) : List Word :=
  setLane x i (laneAt x i ^^^ laneAt x (i - 1))

/-- `for i = 1 .. DIM-1` (rule R110). -/
def grayLanes (dim : Nat) (x : List Word) : List Word :=
  (List.range' 1 (dim - 1)).foldl grayUpdate x

/-- GRAY (rule R110). -/
def gray (w : Work) : Work :=
  { w with x := grayLanes w.dim.toNat w.x, stg := .fcor }

def execGray (s : State) : Host.Outcome State Fault Refusal :=
  runStage .gray stageDomain (fun w s => s.handOver (gray w)) s

end Sys2Proof.Machine
end

