-- ==== Sys2Proof/Machine/Pack.lean ====
section
/-! DEFINITION. PACK, the Morton bit interleaver, stage 4 (rules R130 to R136). -/

namespace Sys2Proof.Machine

/-- Bit `b` of coordinate `i` goes to this bit of the index (rule R131). -/
def packPos (dim b i : Nat) : Nat := b * dim + (dim - 1 - i)

/-- The group of bit position `b`: one bit of every lane (rules R130, R132). -/
def packGroup (dim : Nat) (x : List Word) (v : Index) (b : Nat) : Index :=
  (List.range dim).foldl (fun v i => setIdxBit v (packPos dim b i) ((laneAt x i).getLsbD b)) v

/-- `idx <- 0`, then every bit position of every lane (rule R130). -/
def packIndex (ord dim : Nat) (x : List Word) : Index :=
  (List.range ord).foldl (packGroup dim x) 0

/-- PACK (rule R130): it writes `idx` and no coordinate register. -/
def pack (w : Work) : Work :=
  { w with idx := packIndex w.ord.toNat w.dim.toNat w.x }

/-- "When PACK ends, the transaction's response is IDX = `idx`" (rule R130). -/
def execPack (s : State) : Host.Outcome State Fault Refusal :=
  runStage .pack stageDomain (fun w s => s.respond (pack w)) s

end Sys2Proof.Machine
end

