-- ==== Sys2Proof/Machine/Val.lean ====
section
/-! DEFINITION. VAL, validation of the coordinates, stage 0 (rule R144). -/

namespace Sys2Proof.Machine

/-- OORLANES is written for every lane (rule R144). -/
def valMarks (w : Work) : Work := { w with oor := oorMask w }

/-- "if OORLANES != 0: raise OutOfRangeCoordinate", else STG becomes 1 (rule R144). -/
def valStage (w : Work) (s : State) : State :=
  if (valMarks w).oor.any id then s.raise (valMarks w) errOOR
  else s.handOver { valMarks w with stg := .ewr }

/-- VAL needs a valid configuration only (rule R143). -/
def execVal (s : State) : Host.Outcome State Fault Refusal := runStage .val configValid valStage s

end Sys2Proof.Machine
end

