-- ==== Sys2Proof/Machine/Dispatch.lean ====
section
/-! DEFINITION. One arm per row of `opcode_table.json`. -/

namespace Sys2Proof.Machine

def exec (i : Instr) (s : State) : Host.Outcome State Fault Refusal :=
  match i with
  | .hidx lanes => Sys2Proof.Machine.execHidx lanes s
  | .cfgwr order dim => Sys2Proof.Machine.execCfgwr order dim s
  | .val => Sys2Proof.Machine.execVal s
  | .ewr => Sys2Proof.Machine.execEwr s
  | .gray => Sys2Proof.Machine.execGray s
  | .fcor => Sys2Proof.Machine.execFcor s
  | .pack => Sys2Proof.Machine.execPack s

end Sys2Proof.Machine
end

