-- ==== Sys2Proof/Machine/Sequencer.lean ====
section
/-! DEFINITION. What takes the place of instruction fetch (rule R26): which event comes next, the decoding of the
request at the head of the channel or of the STG of a transaction, and what happens around the instruction.  Also
the block for any parameters, and how a table word is placed so that the next step runs it. -/

namespace Sys2Proof.Machine

/-- The next event: the schedule's, or with an empty schedule the order of a block that holds one transaction at
a time and a host that takes every response (DESIGN CHOICE, log entry 4).  `none`: the block is idle (rule
R194). -/
def nextChoice (s : State) : Option Choice :=
  match s.sched with
  | ch :: _ => some ch
  | [] =>
    if s.rst then none
    else
      match s.inflight with
      | t :: _ => if t.response.isSome then some .deliver else some (.advance 0)
      | [] => if s.reqs.isEmpty then none else some .accept

/-- The choice has been read. -/
def popChoice (s : State) : State := { s with sched := s.sched.tail }

/-- A request is accepted when the host offers one and the block is ready; otherwise nothing happens
(rules R55, R71, R201, R206). -/
def acceptNext (c : Config.Params) (ex : Instr → State → Host.Outcome State Fault Refusal)
    (s : State) : Host.Outcome State Fault Refusal :=
  if s.reqReady c then
    match s.reqs with
    | [] => .next s
    | r :: rest =>
      match decodeRequest c.dmax r with
      | .ok i => ex i { s with reqs := rest }
      | .error _ => .refused .malformedRequest
  else .next s

/-- The `k`-th transaction performs the stage its STG names, if it is a HIDX that is not complete; otherwise
nothing happens (rules R26, R78, R150). -/
def advanceTxn (ex : Instr → State → Host.Outcome State Fault Refusal) (k : Nat) (s : State) :
    Host.Outcome State Fault Refusal :=
  match s.inflight[k]? with
  | some (.hidx w none) =>
    match decodeStage w.stg.code with
    | .ok i => ex i { s with cur := k }
    | .error _ => .next s
  | _ => .next s

/-- One event.  While `rst` is asserted only `rst` itself can change anything (rules R200, R201). -/
def perform (c : Config.Params) (ex : Instr → State → Host.Outcome State Fault Refusal)
    (ch : Choice) (s : State) : Host.Outcome State Fault Refusal :=
  match ch with
  | .rst true => .next s.assertRst
  | .rst false => .next s.releaseRst
  | .accept => acceptNext c ex s
  | .advance k => if s.rst then .next s else advanceTxn ex k s
  | .deliver => if s.rst then .next s else .next s.deliver

/-- One step of a block with parameters `c` whose instructions mean `ex`. -/
def stepWith (c : Config.Params) (ex : Instr → State → Host.Outcome State Fault Refusal)
    (s : State) : Host.Outcome State Fault Refusal :=
  match nextChoice s with
  | none => .next s
  | some ch => perform c ex ch (popChoice s)

/-! ## The block for any parameters (rules R11, R37) -/

/-- The meanings for the parameters `c`; only the host commands depend on them (rule R11). -/
def execAt (c : Config.Params) : Instr → State → Host.Outcome State Fault Refusal
  | .hidx lanes, s => execHidxAt c lanes s
  | .cfgwr order dim, s => execCfgwrAt c order dim s
  | .val, s => execVal s
  | .ewr, s => execEwr s
  | .gray, s => execGray s
  | .fcor, s => execFcor s
  | .pack, s => execPack s

/-- One step of the block with parameters `c`. -/
def stepAt (c : Config.Params) (s : State) : Host.Outcome State Fault Refusal :=
  stepWith c (execAt c) s

/-! ## Placing a table word (log entry 8) -/

/-- The request is put at the head of the host's stream and its acceptance is the next event.  `rst` is released,
and of a full block the youngest transactions are dropped to make room. -/
def placeRequest (c : Config.Params) (s : State) (r : Request) : State :=
  { s with
    reqs := r :: s.reqs
    sched := .accept :: s.sched
    rst := false
    inflight := if s.full c then s.inflight.take (c.depth - 1) else s.inflight }

/-- A working copy at the stage `st`, in the valid domain: ORDER = 1, DIM = 2, every lane 0. -/
def placedWork (c : Config.Params) (s : State) (st : Stage) : Work :=
  { newWork c.dmax (List.replicate c.dmax 0) (s.setCfg 1 2) with stg := st }

/-- A transaction at the stage `st` is put in flight and its advance is the next event. -/
def placeStage (c : Config.Params) (s : State) (st : Stage) : State :=
  { s with
    inflight := s.inflight ++ [.hidx (placedWork c s st) none]
    sched := .advance s.inflight.length :: s.sched
    rst := false
    draws := s.draws + newWorkDraws }

/-- The stage a stage operation belongs to (rule R78). -/
def stageOf : Instr → Option Stage
  | .hidx _ => none
  | .cfgwr _ _ => none
  | .val => some .val
  | .ewr => some .ewr
  | .gray => some .gray
  | .fcor => some .fcor
  | .pack => some .pack

/-- A table word placed so that the next step runs it; a stage row that names no operation changes nothing. -/
def placeWord (c : Config.Params) (s : State) (nbits w : Nat) : State :=
  if isStageRow nbits then
    match (decodeStageWord w).toOption.bind stageOf with
    | some st => placeStage c s st
    | none => s
  else placeRequest c s (Request.ofNat c.dmax w)

end Sys2Proof.Machine
end

