-- ==== Sys2Proof/Machine/Step.lean ====
section
/-! DEFINITION. One step of the block behind the fixed names, and how a table word is placed for it. -/

namespace Sys2Proof.Machine

/-- One event: an acceptance, one stage of one transaction, a delivery, a change of `rst`, or nothing
(rules R13, R150). -/
def step (s : State) : Host.Outcome State Fault Refusal := stepWith Config.params exec s

/-- `s` with a table word placed so that the very next step runs it (log entry 8). -/
def State.withFetchWord (s : State) (nbits w : Nat) : State := placeWord Config.params s nbits w

end Sys2Proof.Machine
end

