-- ==== Sys2Proof/Safety.lean ====
section
/-! DEFINITION. The terms the claims use: validity of a configuration and of a point in plain numbers (rules R9,
R19), the invariant of the block, what a request is answered with as a function of the request and the
configuration alone (rules R81, R140, R160), the sequential service any schedule must amount to (rules R57, R150),
the stages said a second time, bit by bit, without the scalars `Q`, `P`, `t` (rules R101, R105, R111, R123), and the
terms of locality (rule R149).
No step of the machine calls anything of this file. -/

namespace Sys2Proof.Machine

/-! ## Validity -/

/-- A valid configuration (rule R9). -/
abbrev ValidConfig (dmax : Nat) (ord dim : BitVec 6) : Prop :=
  1 ≤ ord.toNat ∧ 2 ≤ dim.toNat ∧ dim.toNat ≤ dmax ∧ dim.toNat * ord.toNat < 64

/-- A valid point: every coordinate `x[i] < 2^ORDER` for `i < DIM` (rule R19). -/
abbrev ValidPoint (ord dim : BitVec 6) (x : List Word) : Prop :=
  ∀ i < dim.toNat, (laneAt x i).toNat < 2 ^ ord.toNat

/-- The transaction whose turn it is is a HIDX at stage `st` with the working copy `w`. -/
abbrev AtStage (s : State) (st : Stage) (w : Work) : Prop :=
  s.inflight[s.cur]? = some (.hidx w none) ∧ w.stg = st

/-- The transform stages may run: the lanes exist, the configuration and the point are valid (rules R143, U4). -/
abbrev InDomain (w : Work) : Prop :=
  ValidConfig w.x.length w.ord w.dim ∧ ValidPoint w.ord w.dim w.x

/-! ## The invariant -/

/-- The only possible values of ERR (rule R174). -/
abbrev LegalErr (e : BitVec 3) : Prop := e = 0#3 ∨ e = 1#3 ∨ e = 2#3 ∨ e = 4#3 ∨ e = 5#3

/-- A complete response: a possible ERR, DMAX bits of OORLANES, and some lane named exactly when OOR is set
(rules R29, R174, R175). -/
abbrev Response.Sound (dmax : Nat) (r : Response) : Prop :=
  LegalErr r.err ∧ r.oor.length = dmax ∧ (r.oor.any id = true ↔ r.err = 2#3)

/-- A working copy on its way: a valid configuration was sampled, nothing is flagged, and after VAL the point is
valid (rules R141, R143, R144). -/
abbrev Work.Live (dmax : Nat) (w : Work) : Prop :=
  w.x.length = dmax ∧ w.oor = noOor dmax ∧ w.err = 0#3 ∧ w.stg ≠ .done ∧
    ValidConfig dmax w.ord w.dim ∧ (w.stg ≠ .val → ValidPoint w.ord w.dim w.x)

/-- A working copy at DONE and its response: they agree, only lanes `i < DIM` are named, and a response without
error carries the index, below `2^(ORDER*DIM)` (rules R26, R29, R133, R176). -/
abbrev Work.Finished (dmax : Nat) (w : Work) (r : Response) : Prop :=
  w.x.length = dmax ∧ w.stg = .done ∧ r.Sound dmax ∧ r.err = w.err ∧ r.oor = w.oor ∧
    (∀ i, w.dim.toNat ≤ i → w.oor.getD i false = false) ∧
    (r.err = 0#3 → r.idx = w.idx ∧ ValidConfig dmax w.ord w.dim ∧
      r.idx.toNat < 2 ^ (w.dim.toNat * w.ord.toNat))

/-- A transaction in flight is as the rules leave it. -/
def Txn.Sound (dmax : Nat) : Txn → Prop
  | .hidx w none => w.Live dmax
  | .hidx w (some r) => w.Finished dmax r
  | .cfgwr r => r.Sound dmax ∧ r.err ≠ 2#3

/-- The invariant of a block with parameters `c`. -/
structure Inv (c : Config.Params) (s : State) : Prop where
  /-- No more transactions in flight than there is room for (rule R210). -/
  room : s.inflight.length ≤ c.depth
  /-- Every transaction in flight is sound. -/
  txns : ∀ t ∈ s.inflight, t.Sound c.dmax
  /-- Every request of the host has the length of the channel (rule R72). -/
  reqs : ∀ r ∈ s.reqs, r.data.length = c.dmax
  /-- Every response the host has received is sound (rules R174, R176). -/
  delivered : ∀ r ∈ s.delivered, r.Sound c.dmax
  /-- While `rst` is asserted the block is in its reset state (rule R200). -/
  inReset : s.rst = true → s.cfgOrder = 0 ∧ s.cfgDim = 0 ∧ s.inflight = []

/-! ## Answers -/

/-- What the spec fixes of a response: ERR, OORLANES, and IDX where it is specified (rule R81). -/
structure Answer where
  err : BitVec 3
  oor : List Bool
  idx : Option Index
deriving DecidableEq, Repr

/-- A response gives an answer: it may carry any IDX where the answer specifies none (rules R81, U1). -/
abbrev Response.Gives (r : Response) (a : Answer) : Prop :=
  r.err = a.err ∧ r.oor = a.oor ∧ ∀ v, a.idx = some v → r.idx = v

/-- A fresh working copy of a point, every scalar 0. -/
def pointWork (ord dim : BitVec 6) (x : List Word) : Work :=
  { x := x, t := 0, q := 0, p := 0, idx := 0, ord := ord, dim := dim, stg := .val,
    lane := 0, err := 0, oor := noOor x.length }

/-- `H(ORDER, DIM, x) = PACK(FCOR(GRAY(EWR(x))))` (rule R145). -/
def hilbertIndex (ord dim : BitVec 6) (x : List Word) : Index :=
  (pack (fcor (gray (ewr (pointWork ord dim x))))).idx

/-- HIDX in one step, the function of rule R140. -/
def hidxAnswer (dmax : Nat) (ord dim : BitVec 6) (lanes : List Word) : Answer :=
  if cfgErr dmax ord dim ≠ 0 then
    { err := cfgErr dmax ord dim, oor := noOor dmax, idx := none }
  else if (oorMask (pointWork ord dim lanes)).any id then
    { err := errOOR, oor := oorMask (pointWork ord dim lanes), idx := none }
  else
    { err := 0, oor := noOor dmax, idx := some (hilbertIndex ord dim lanes) }

/-- CFGWR in one step, the function of rule R160. -/
def cfgwrAnswer (dmax : Nat) (ord dim : BitVec 6) : Answer :=
  { err := cfgErr dmax ord dim, oor := noOor dmax, idx := none }

/-- The answer a request will get when it is accepted under the configuration of `s` (rules R141, R160). -/
def acceptAnswer (dmax : Nat) (s : State) : Instr → Option Answer
  | .hidx lanes => some (hidxAnswer dmax s.cfgOrder s.cfgDim lanes)
  | .cfgwr order dim => some (cfgwrAnswer dmax order dim)
  | .val => none
  | .ewr => none
  | .gray => none
  | .fcor => none
  | .pack => none

/-- The answer a working copy is on its way to, from the stage it is at (rule R145). -/
def Work.answer (w : Work) : Answer :=
  match w.stg with
  | .val =>
    if (oorMask w).any id then { err := errOOR, oor := oorMask w, idx := none }
    else { err := w.err, oor := oorMask w, idx := some (pack (fcor (gray (ewr w)))).idx }
  | .ewr => { err := w.err, oor := w.oor, idx := some (pack (fcor (gray (ewr w)))).idx }
  | .gray => { err := w.err, oor := w.oor, idx := some (pack (fcor (gray w))).idx }
  | .fcor => { err := w.err, oor := w.oor, idx := some (pack (fcor w)).idx }
  | .pack => { err := w.err, oor := w.oor, idx := some (pack w).idx }
  | .done => { err := w.err, oor := w.oor, idx := none }

/-- The answer of a transaction in flight. -/
def Txn.answer : Txn → Answer
  | .hidx w none => w.answer
  | .hidx _ (some r) =>
    { err := r.err, oor := r.oor, idx := if r.err = 0 then some r.idx else none }
  | .cfgwr r => { err := r.err, oor := r.oor, idx := none }

/-- The requests answered one after the other, each HIDX under the configuration of the last CFGWR before it
(rule R57). -/
def serve (dmax : Nat) : BitVec 6 → BitVec 6 → List Request → List Answer
  | _, _, [] => []
  | o, d, r :: rs =>
    match decodeRequest dmax r with
    | .ok (.hidx lanes) => hidxAnswer dmax o d lanes :: serve dmax o d rs
    | .ok (.cfgwr o' d') => cfgwrAnswer dmax o' d' :: serve dmax o' d' rs
    | _ => []

/-- The block with parameters `c` as a machine of its own. -/
def blockCore (c : Config.Params) : Host.Core :=
  { State := State, Fault := Fault, Refusal := Refusal, step := stepAt c, reset := State.reset }

/-- Every response so far, delivered or still in flight, by its place in request order; `none` where it is not yet
complete (rules R57 (4), R82). -/
def responseLog (s : State) : List (Option Response) :=
  s.delivered.map some ++ s.inflight.map Txn.response

/-! ## The stages bit by bit -/

/-- The bits below bit `k`. -/
def lowMask (k : Nat) : Word := BitVec.ofNat 32 (2 ^ k - 1)

/-- The bits below `k` of `lo` and the others of `hi`. -/
def splice (k : Nat) (lo hi : Word) : Word := (lo &&& lowMask k) ||| (hi &&& ~~~(lowMask k))

/-- One lane visit in the round of bit `k`: complement the bits below `k` of `x[0]`, or exchange them with those
of `x[i]` (rules R101, R105 (e)). -/
def visitByBit (k : Nat) (x : List Word) (i : Nat) : List Word :=
  if (laneAt x i).getLsbD k then setLane x 0 (laneAt x 0 ^^^ lowMask k)
  else setLane (setLane x 0 (splice k (laneAt x i) (laneAt x 0))) i
    (splice k (laneAt x 0) (laneAt x i))

/-- The rounds of bits `ORDER-1` down to 1, each visiting the lanes `0` to `DIM-1` (rules R102, R103). -/
def ewrByBit (ord dim : Nat) (x : List Word) : List Word :=
  (List.range' 1 (ord - 1)).reverse.foldl
    (fun x k => (List.range dim).foldl (visitByBit k) x) x

/-- `a[0] XOR a[1] XOR … XOR a[i]` (rule R111). -/
def xorUpTo (a : List Word) : Nat → Word
  | 0 => laneAt a 0
  | i + 1 => xorUpTo a i ^^^ laneAt a (i + 1)

/-- The XOR of bits `j`, `j+1`, …, `j+n-1` of `y`. -/
def xorBits (y : Word) (j : Nat) : Nat → Bool
  | 0 => false
  | n + 1 => xor (xorBits y j n) (y.getLsbD (j + n))

/-- Bit `j` of the correction term: the XOR of bits `j+1` up to `ORDER-1` of the last coordinate (rule R123). -/
def foldBit (ord : Nat) (y : Word) (j : Nat) : Bool := xorBits y (j + 1) (ord - 1 - j)

/-! ## Locality (rule R149) -/

/-- Neighbouring cells: the points differ in exactly one coordinate, by exactly 1 (rule R149). -/
abbrev Neighbours (dim : Nat) (x y : List Word) : Prop :=
  ∃ p < dim, (∀ i < dim, i ≠ p → laneAt x i = laneAt y i) ∧
    ((laneAt y p).toNat = (laneAt x p).toNat + 1 ∨ (laneAt x p).toNat = (laneAt y p).toNat + 1)

/-- "plain bit-interleaving": PACK of the raw point, without EWR, GRAY and FCOR (rule R149; `95_test_vectors.md`
section 6.3). -/
def plainIndex (ord dim : BitVec 6) (x : List Word) : Index := packIndex ord.toNat dim.toNat x

/-- Every point of `dim` coordinates below `side`. -/
def gridPoints (side : Nat) : Nat → List (List Word)
  | 0 => [[]]
  | dim + 1 => (gridPoints side dim).flatMap fun x => (List.range side).map fun v => BitVec.ofNat 32 v :: x

/-- Every pair of adjacent cells of a configuration: one coordinate larger by 1 in the second. -/
def adjacentPairs (ord dim : BitVec 6) : List (List Word × List Word) :=
  (gridPoints (2 ^ ord.toNat) dim.toNat).flatMap fun x =>
    ((List.range dim.toNat).filter fun i => (laneAt x i).toNat + 1 < 2 ^ ord.toNat).map fun i =>
      (x, setLane x i (laneAt x i + 1))

/-- The absolute differences of the indices of all pairs of adjacent cells. -/
def adjacentGaps (ord dim : BitVec 6) (index : List Word → Index) : List Nat :=
  (adjacentPairs ord dim).map fun (x, y) =>
    ((index x).toNat - (index y).toNat) + ((index y).toNat - (index x).toNat)

/-- `m` is the median: in sorted order it stands in the middle, on both middle places of an even number. -/
abbrev IsMedian (m : Nat) (l : List Nat) : Prop :=
  2 * (l.filter (· < m)).length < l.length ∧ l.length < 2 * (l.filter (· ≤ m)).length

/-- A row of the table of `95_test_vectors.md` section 6.3: the number of adjacent pairs, median and maximum of the
index difference for the Hilbert index and for plain interleaving, and the larger mean of the Hilbert index. -/
abbrev LocalityRow (ord dim : BitVec 6) (pairs hMedian hMax pMedian pMax : Nat) : Prop :=
  (adjacentPairs ord dim).length = pairs ∧
  IsMedian hMedian (adjacentGaps ord dim (hilbertIndex ord dim)) ∧
  (adjacentGaps ord dim (hilbertIndex ord dim)).foldl max 0 = hMax ∧
  IsMedian pMedian (adjacentGaps ord dim (plainIndex ord dim)) ∧
  (adjacentGaps ord dim (plainIndex ord dim)).foldl max 0 = pMax ∧
  (adjacentGaps ord dim (plainIndex ord dim)).sum < (adjacentGaps ord dim (hilbertIndex ord dim)).sum

end Sys2Proof.Machine
end

