-- ==== Sys2Proof/Certificates/Slice0/Obligations.lean ====
section
/-! DEFINITION. The statements for the provers.  Each docstring says which rule or section of the spec it
formalises.  Nothing rests on the value of a free value: where a response carries an unspecified IDX, or a
working register is unwritten, the statement says only that there is some value (log entries 5, 6).  The fields
`reqs`, `delivered`, `sched`, `cur` and `draws` of the state are the model's, not the spec's (log entries 4, 5, 6). -/

open Sys2Proof Sys2Proof.Machine

/-! ## Encodings -/

/-- Rule R86, the worked encodings: four requests, assembled and decoded, and two responses. -/
def Obligations.WorkedEncodingsOfTheSpec : Prop :=
  encodeWord 3 (Asm.cfgwr 1 2) = 0x1000000000000000000000201 ∧
  decodeReqWord 3 0x1000000000000000000000201 = .ok (.cfgwr 1 2) ∧
  encodeWord 3 (Asm.cfgwr 22 3) = 0x1000000000000000000000316 ∧
  decodeReqWord 3 0x1000000000000000000000316 = .ok (.cfgwr 22 3) ∧
  encodeWord 3 (Asm.hidx 3 [5, 3]) = 0x0000000000000000300000005 ∧
  decodeReqWord 3 0x0000000000000000300000005 = .ok (.hidx [5, 3, 0]) ∧
  encodeWord 3 (Asm.hidx 3 [5, 2, 7]) = 0x0000000070000000200000005 ∧
  decodeReqWord 3 0x0000000070000000200000005 = .ok (.hidx [5, 2, 7]) ∧
  Response.toNat { idx := 52, err := 0, oor := [false, false, false] } = 0x000000000000000034 ∧
  ∀ idx, Response.flagsNat { idx := idx, err := 2, oor := [true, false, false] } = 0b001010

/-- Rules R72, R73, R75, R76, R78: for every block, decoding the encoding of a well-formed instruction gives it
back, as channel signals and as the number of its table row, and that number has the row's width. -/
def Obligations.DecodeInvertsEncode : Prop :=
  ∀ (dmax : Nat) (i : Instr), 3 ≤ dmax → dmax ≤ 63 → i.wf dmax = true →
    decode dmax (encode dmax i) = .ok i ∧
    encodeWord dmax i < 2 ^ encodedBits dmax i ∧
    decodeWord dmax (encodedBits dmax i) (encodeWord dmax i) = .ok i

/-- Rules R74, R75, R76: every word of `1 + 32*DMAX` bits is a command; `req_op` is bit `32*DMAX`, bit `b` of
lane `i` is bit `32*i + b`, ORDER is bits 5 to 0 and DIM bits 13 to 8, and no other bit of a CFGWR counts. -/
def Obligations.EveryRequestWordIsACommand : Prop :=
  ∀ (dmax w : Nat), 3 ≤ dmax → w < 2 ^ (1 + 32 * dmax) →
    (w.testBit (32 * dmax) = false →
      ∃ lanes, decodeReqWord dmax w = .ok (.hidx lanes) ∧ lanes.length = dmax ∧
        ∀ i < dmax, ∀ b < 32, (laneAt lanes i).getLsbD b = w.testBit (32 * i + b)) ∧
    (w.testBit (32 * dmax) = true →
      ∃ order dim, decodeReqWord dmax w = .ok (.cfgwr order dim) ∧
        ∀ b < 6, order.getLsbD b = w.testBit b ∧ dim.getLsbD b = w.testBit (8 + b))

/-- Rules R26, R71, R78: a step that accepts runs the decoded request, after taking it from the host's stream; a
step that advances a transaction runs the operation its STG selects, on that transaction; and with an empty
schedule (the model's own order, log entry 4) an idle block accepts, and a block with an unfinished oldest
transaction advances that one. -/
def Obligations.StepRunsTheDecodedOperation : Prop :=
  (∀ (s : State) (sch : List Choice) (r : Request) (rest : List Request) (i : Instr),
    s.rst = false → s.inflight.length < Config.params.depth → s.sched = .accept :: sch →
    s.reqs = r :: rest → decodeRequest Config.dmax r = .ok i →
    step s = exec i { s with sched := sch, reqs := rest }) ∧
  (∀ (s : State) (sch : List Choice) (k : Nat) (w : Work) (i : Instr),
    s.rst = false → s.sched = .advance k :: sch → s.inflight[k]? = some (.hidx w none) →
    decodeStage w.stg.code = .ok i →
    step s = exec i { s with sched := sch, cur := k }) ∧
  (∀ (s : State) (r : Request) (rest : List Request) (i : Instr),
    s.rst = false → s.sched = [] → s.inflight = [] → s.reqs = r :: rest →
    decodeRequest Config.dmax r = .ok i →
    step s = exec i { s with reqs := rest }) ∧
  (∀ (s : State) (w : Work) (rest : List Txn) (i : Instr),
    s.rst = false → s.sched = [] → s.inflight = .hidx w none :: rest →
    decodeStage w.stg.code = .ok i →
    step s = exec i { s with cur := 0 })

/-- The model's placing of a table word (log entry 8): the very next step runs the instruction the word decodes to,
under the same configuration, and a stage operation finds a transaction at its stage and in its domain. -/
def Obligations.PlacedWordIsRunNext : Prop :=
  ∀ (s : State) (nbits w : Nat) (i : Instr), decodeTableWord nbits w = some i →
    ∃ s', step (s.withFetchWord nbits w) = exec i s' ∧
      s'.cfgOrder = s.cfgOrder ∧ s'.cfgDim = s.cfgDim ∧ s'.reqs = s.reqs ∧
      s'.delivered = s.delivered ∧ s'.sched = s.sched ∧
      ∀ st, stageOf i = some st → ∃ v, AtStage s' st v ∧ InDomain v

/-! ## The host commands -/

/-- Rules R9, R33: CFGERR as a function of ORDER and DIM.  The last clause, the bounds of a valid configuration, is the
inference that rule R9 marks as its own. -/
def Obligations.ConfigurationCheckIsExact : Prop :=
  ∀ (dmax : Nat) (order dim : BitVec 6),
    (ceBit (cfgErr dmax order dim) = true ↔ order.toNat = 0 ∨ 64 ≤ dim.toNat * order.toNat) ∧
    (udBit (cfgErr dmax order dim) = true ↔ dim.toNat < 2 ∨ dmax < dim.toNat) ∧
    oorBit (cfgErr dmax order dim) = false ∧
    (cfgErr dmax order dim = 0 ↔ ValidConfig dmax order dim) ∧
    (ValidConfig dmax order dim → order.toNat ≤ 31 ∧ dim.toNat * order.toNat ≤ 63)

/-- Rules R160, R163: CFGWR writes both fields whatever they hold, and its response, complete at once and last in
request order, reports CE and UD of the new pair, both when both apply.  Everything else stays. -/
def Obligations.CfgwrAlwaysWritesAndReports : Prop :=
  ∀ (s : State) (order dim : BitVec 6),
    ∃ r : Response, ∃ n : Nat,
      exec (.cfgwr order dim) s = .next { s with
        cfgOrder := order, cfgDim := dim, inflight := s.inflight ++ [.cfgwr r],
        cur := s.inflight.length, draws := n } ∧
      (ceBit r.err = true ↔ order.toNat = 0 ∨ 64 ≤ dim.toNat * order.toNat) ∧
      (udBit r.err = true ↔ dim.toNat < 2 ∨ Config.dmax < dim.toNat) ∧
      oorBit r.err = false ∧ r.oor = List.replicate Config.dmax false

/-- `45_hilbert_index.md` section 1 (acceptance) under a valid configuration: the new transaction holds the lanes
and the sampled configuration, ERR and OORLANES are 0, STG is 0, and everything else stays, CFG included. -/
def Obligations.HidxSamplesConfigurationAndLanes : Prop :=
  ∀ (s : State) (lanes : List Word), ValidConfig Config.dmax s.cfgOrder s.cfgDim →
    ∃ w : Work, ∃ n : Nat,
      exec (.hidx lanes) s = .next { s with
        inflight := s.inflight ++ [.hidx w none], cur := s.inflight.length, draws := n } ∧
      w.x = lanes ∧ w.ord = s.cfgOrder ∧ w.dim = s.cfgDim ∧
      w.err = 0 ∧ w.oor = List.replicate Config.dmax false ∧ w.stg = .val

/-- Rule R143: under an invalid configuration a HIDX ends at once with (UD, 0, CE), whatever the lanes hold, its IDX
a free value; and no stage operation ever completes under an invalid configuration. -/
def Obligations.HidxReportsAnInvalidConfiguration : Prop :=
  (∀ (s : State) (lanes : List Word), ¬ ValidConfig Config.dmax s.cfgOrder s.cfgDim →
    ∃ w : Work, ∃ r : Response, ∃ n k : Nat,
      exec (.hidx lanes) s = .next { s with
        inflight := s.inflight ++ [.hidx w (some r)], cur := s.inflight.length, draws := n } ∧
      w.stg = .done ∧ w.err = r.err ∧ r.err ≠ 0 ∧ r.idx = Config.unspec64 k ∧
      (ceBit r.err = true ↔ s.cfgOrder.toNat = 0 ∨ 64 ≤ s.cfgDim.toNat * s.cfgOrder.toNat) ∧
      (udBit r.err = true ↔ s.cfgDim.toNat < 2 ∨ Config.dmax < s.cfgDim.toNat) ∧
      oorBit r.err = false ∧ r.oor = List.replicate Config.dmax false) ∧
  (∀ (s t : State) (i : Instr) (st : Stage), stageOf i = some st → exec i s = .next t →
    ∃ w, AtStage s st w ∧ 1 ≤ w.ord.toNat ∧ w.ord.toNat ≤ 31 ∧ 2 ≤ w.dim.toNat ∧
      w.dim.toNat ≤ w.x.length ∧ w.dim.toNat * w.ord.toNat ≤ 63)

/-! ## The stages -/

/-- Rule R144: a valid point passes VAL unchanged, with OORLANES 0; otherwise the transaction ends with ERR = 0b010
and OORLANES naming exactly the lanes `i < DIM` with `x[i] ≥ 2^ORDER`, its IDX a free value, and no transform stage
runs. -/
def Obligations.ValExaminesEveryLane : Prop :=
  ∀ (s : State) (w : Work), AtStage s .val w → ValidConfig w.x.length w.ord w.dim →
    w.oor.length = w.x.length →
    (ValidPoint w.ord w.dim w.x →
      exec .val s = .next { s with
        inflight := s.inflight.set s.cur (.hidx { w with stg := .ewr, oor := List.replicate w.x.length false } none) }) ∧
    (¬ ValidPoint w.ord w.dim w.x →
      ∃ r : Response, ∃ n : Nat,
        exec .val s = .next { s with
          inflight := s.inflight.set s.cur (.hidx { w with stg := .done, err := 2#3, oor := r.oor } (some r))
          draws := n } ∧
        r.err = 2#3 ∧ (∃ k, r.idx = Config.unspec64 k) ∧ r.oor.length = w.x.length ∧
        ∀ i, r.oor.getD i false = true ↔
          i < w.dim.toNat ∧ 2 ^ w.ord.toNat ≤ (laneAt w.x i).toNat)

/-- `41_excess_work_remover.md` sections 1 and 2: EWR is the rounds of bits ORDER-1 down to 1, each visiting the
lanes 0 to DIM-1 in turn; it writes no flag and hands over to GRAY. -/
def Obligations.EwrIsItsRoundsOfVisits : Prop :=
  ∀ (s : State) (w : Work), AtStage s .ewr w → InDomain w →
    ∃ w' : Work,
      exec .ewr s = .next { s with inflight := s.inflight.set s.cur (.hidx w' none) } ∧
      w'.x = ewrByBit w.ord.toNat w.dim.toNat w.x ∧ w'.stg = .gray ∧
      w'.idx = w.idx ∧ w'.ord = w.ord ∧ w'.dim = w.dim ∧ w'.err = w.err ∧ w'.oor = w.oor

/-- Rule R105 (a) to (d): a round changes only bits below the bit of `Q`; EWR never changes bit ORDER-1 or above,
keeps a point valid, and leaves the lanes from DIM on alone. -/
def Obligations.EwrChangesOnlyLowBits : Prop :=
  (∀ (w : Work) (k i b : Nat), k < 32 → w.q = BitVec.ofNat 32 (2 ^ k) → k ≤ b →
    (laneAt (ewrRound w).x i).getLsbD b = (laneAt w.x i).getLsbD b) ∧
  (∀ w : Work, InDomain w →
    (∀ i b, w.ord.toNat - 1 ≤ b → (laneAt (ewr w).x i).getLsbD b = (laneAt w.x i).getLsbD b) ∧
    ValidPoint w.ord w.dim (ewr w).x ∧
    (ewr w).x.length = w.x.length ∧
    ∀ i, w.dim.toNat ≤ i → laneAt (ewr w).x i = laneAt w.x i)

/-- Rule R105 (e): a lane visit undoes itself, and EWR maps valid points one-to-one onto valid points. -/
def Obligations.EwrIsOneToOneOntoValidPoints : Prop :=
  (∀ (w : Work) (k i : Nat), k < 32 → w.q = BitVec.ofNat 32 (2 ^ k) → w.p = w.q - 1 →
    i < w.x.length → (ewrVisit (ewrVisit w i) i).x = w.x) ∧
  (∀ w v : Work, InDomain w → InDomain v → w.ord = v.ord → w.dim = v.dim →
    w.x.length = v.x.length → (ewr w).x = (ewr v).x → w.x = v.x) ∧
  (∀ v : Work, InDomain v → ∃ w : Work, InDomain w ∧ w.ord = v.ord ∧ w.dim = v.dim ∧
    w.x.length = v.x.length ∧ (ewr w).x = v.x)

/-- Rules R26, R103, R150: EWR in its finer steps.  It is exactly `(ORDER-1) * DIM` lane visits; after `n` of them
the mask is `2^(ORDER-1-n/DIM)` and the lane counter `n mod DIM`; and at the end the point is the one the whole
stage leaves. -/
def Obligations.EwrInFinerSteps : Prop :=
  ∀ w : Work, InDomain w →
    (∀ n, n < (w.ord.toNat - 1) * w.dim.toNat →
      (ewrSteps n (ewrStart w)).q = BitVec.ofNat 32 (2 ^ (w.ord.toNat - 1 - n / w.dim.toNat)) ∧
      (ewrSteps n (ewrStart w)).lane.toNat = n % w.dim.toNat) ∧
    (ewrSteps ((w.ord.toNat - 1) * w.dim.toNat) (ewrStart w)).x = (ewr w).x ∧
    (ewrSteps ((w.ord.toNat - 1) * w.dim.toNat) (ewrStart w)).q = 1

/-- Rules R110, R111, R112 (the closed form is the spec's inference from R110): GRAY leaves in every lane `i < DIM`
the XOR of the entry values of lanes 0 to `i`, the other lanes alone, and a valid point valid. -/
def Obligations.GrayIsTheRunningXor : Prop :=
  ∀ (s : State) (w : Work), AtStage s .gray w → InDomain w →
    ∃ x' : List Word,
      exec .gray s = .next { s with
        inflight := s.inflight.set s.cur (.hidx { w with x := x', stg := .fcor } none) } ∧
      x'.length = w.x.length ∧ ValidPoint w.ord w.dim x' ∧
      (∀ i < w.dim.toNat, laneAt x' i = xorUpTo w.x i) ∧
      ∀ i, w.dim.toNat ≤ i → laneAt x' i = laneAt w.x i

/-- Rules R120, R122, R123: bit `j` of the correction term is the XOR of bits `j+1` to `ORDER-1` of the last
coordinate on entry, and the term is XORed into every lane `i < DIM`, the last one included. -/
def Obligations.FcorFoldsTheLastCoordinate : Prop :=
  ∀ (s : State) (w : Work), AtStage s .fcor w → InDomain w →
    ∃ (x' : List Word) (t q : Word),
      exec .fcor s = .next { s with
        inflight := s.inflight.set s.cur (.hidx { w with x := x', t := t, q := q, stg := .pack } none) } ∧
      (∀ j, t.getLsbD j = foldBit w.ord.toNat (laneAt w.x (w.dim.toNat - 1)) j) ∧
      t.toNat < 2 ^ (w.ord.toNat - 1) ∧
      x'.length = w.x.length ∧ ValidPoint w.ord w.dim x' ∧
      (∀ i < w.dim.toNat, laneAt x' i = laneAt w.x i ^^^ t) ∧
      ∀ i, w.dim.toNat ≤ i → laneAt x' i = laneAt w.x i

/-- Rules R131, R133: bit `b` of coordinate `i` goes to bit `b*DIM + (DIM-1-i)` of the index and every higher bit is
0; the transaction is then DONE and its response carries the index and the flags as they stand. -/
def Obligations.PackPlacesEveryBit : Prop :=
  ∀ (s : State) (w : Work), AtStage s .pack w → InDomain w →
    ∃ r : Response,
      exec .pack s = .next { s with
        inflight := s.inflight.set s.cur (.hidx { w with idx := r.idx, stg := .done } (some r)) } ∧
      r.err = w.err ∧ r.oor = w.oor ∧
      (∀ b < w.ord.toNat, ∀ i < w.dim.toNat,
        r.idx.getLsbD (b * w.dim.toNat + (w.dim.toNat - 1 - i)) = (laneAt w.x i).getLsbD b) ∧
      (∀ k, w.ord.toNat * w.dim.toNat ≤ k → r.idx.getLsbD k = false) ∧
      r.idx.toNat < 2 ^ (w.ord.toNat * w.dim.toNat)

/-- Rule R121, and the edge case of rule R103: at ORDER = 1 neither EWR nor FCOR changes a coordinate, and the
correction term is 0; at ORDER = 2 the term is 1 or 0, as bit 1 of the last coordinate is. -/
def Obligations.OrderOneLeavesCoordinates : Prop :=
  (∀ (s : State) (w : Work), AtStage s .ewr w → InDomain w → w.ord.toNat = 1 →
    ∃ w' : Work, exec .ewr s = .next { s with inflight := s.inflight.set s.cur (.hidx w' none) } ∧
      w'.x = w.x ∧ w'.stg = .gray) ∧
  (∀ (s : State) (w : Work), AtStage s .fcor w → InDomain w → w.ord.toNat = 1 →
    ∃ w' : Work, exec .fcor s = .next { s with inflight := s.inflight.set s.cur (.hidx w' none) } ∧
      w'.x = w.x ∧ w'.t = 0 ∧ w'.stg = .pack) ∧
  (∀ (s : State) (w : Work), AtStage s .fcor w → InDomain w → w.ord.toNat = 2 →
    ∃ w' : Work, exec .fcor s = .next { s with inflight := s.inflight.set s.cur (.hidx w' none) } ∧
      w'.t = (if (laneAt w.x (w.dim.toNat - 1)).getLsbD 1 then 1 else 0) ∧ w'.stg = .pack)

/-- `93_implementation_defined.md` U4 and rules R134, R145: the model's stops, all outside what the block can do.  A
stage operation with no unfinished HIDX whose turn it is, at another stage, under an invalid configuration, or (a
transform stage) on an invalid point is refused by name. -/
def Obligations.StagesAreRefusedOutOfPlace : Prop :=
  ∀ (s : State) (i : Instr) (st : Stage), stageOf i = some st →
    ((∀ w, s.inflight[s.cur]? ≠ some (.hidx w none)) → exec i s = .refused .noTransaction) ∧
    (∀ w, s.inflight[s.cur]? = some (.hidx w none) →
      (w.stg ≠ st → exec i s = .refused .stageOutOfOrder) ∧
      (w.stg = st → ¬ ValidConfig w.x.length w.ord w.dim → exec i s = .refused .outsideValidDomain) ∧
      (w.stg = st → st ≠ .val → ¬ InDomain w → exec i s = .refused .outsideValidDomain))

/-- `10_state.md` section 2 (which stage writes which register) and rule R107: what a completed stage operation
leaves unchanged.  CFG, the host's side, the schedule and every other transaction; in its own working copy the
sampled configuration, the lanes from DIM on, and each register that is not the stage's to write. -/
def Obligations.StageFrame : Prop :=
  ∀ (s t : State) (i : Instr) (st : Stage), stageOf i = some st → exec i s = .next t →
    ∃ (w w' : Work) (o : Option Response),
      s.inflight[s.cur]? = some (.hidx w none) ∧
      t.inflight = s.inflight.set s.cur (.hidx w' o) ∧
      t.cfgOrder = s.cfgOrder ∧ t.cfgDim = s.cfgDim ∧ t.rst = s.rst ∧ t.reqs = s.reqs ∧
      t.delivered = s.delivered ∧ t.sched = s.sched ∧ t.cur = s.cur ∧
      w'.ord = w.ord ∧ w'.dim = w.dim ∧ w'.x.length = w.x.length ∧
      (∀ k, w.dim.toNat ≤ k → laneAt w'.x k = laneAt w.x k) ∧
      (i ≠ .pack → w'.idx = w.idx) ∧
      (i ≠ .val → w'.err = w.err ∧ w'.oor = w.oor ∧ t.draws = s.draws) ∧
      (i = .val ∨ i = .pack → w'.x = w.x) ∧
      (i = .gray → laneAt w'.x 0 = laneAt w.x 0) ∧
      (i ≠ .ewr → w'.p = w.p ∧ w'.lane = w.lane) ∧
      (i ≠ .ewr → i ≠ .fcor → w'.t = w.t ∧ w'.q = w.q)

/-- Rule R141, "From then on the transaction reads nothing outside its own working copy", for two blocks that agree
in that working copy and may differ in everything else but the model's draw counter: the stage has the same
outcome for that transaction. -/
def Obligations.StageReadsOnlyItsWorkingCopy : Prop :=
  ∀ (s s' t : State) (i : Instr) (st : Stage), stageOf i = some st →
    s.inflight[s.cur]? = s'.inflight[s'.cur]? → s.draws = s'.draws →
    exec i s = .next t →
    ∃ t', exec i s' = .next t' ∧ t'.inflight[s'.cur]? = t.inflight[s.cur]?

/-! ## The channels and reset -/

/-- Rules R55, R57 (4), R82: a delivery hands over the oldest response, and only if it is complete; nothing else
changes. -/
def Obligations.OldestResponseIsDelivered : Prop :=
  ∀ (s : State) (sch : List Choice), s.rst = false → s.sched = .deliver :: sch →
    (∀ x rest r, s.inflight = x :: rest → x.response = some r →
      step s = .next { s with sched := sch, inflight := rest, delivered := s.delivered ++ [r] }) ∧
    ((∀ x rest, s.inflight = x :: rest → x.response = none) → step s = .next { s with sched := sch })

/-- Rules R55, R201, R206 (c): a request that cannot be accepted (none offered, no room, or `rst` asserted) has no
effect at all. -/
def Obligations.UnacceptedRequestHasNoEffect : Prop :=
  ∀ (s : State) (sch : List Choice), s.sched = .accept :: sch →
    (s.reqs = [] ∨ Config.params.depth ≤ s.inflight.length ∨ s.rst = true) →
    step s = .next { s with sched := sch }

/-- Rule R39: CFG is 0 and 0 after reset, which is CE and UD for every DMAX; nothing is in flight, no response is
offered, a request can be accepted, and a HIDX then fails with ERR = 0b101 and OORLANES 0. -/
def Obligations.ResetLeavesTheBlockUnconfigured : Prop :=
  State.reset.cfgOrder = 0 ∧ State.reset.cfgDim = 0 ∧ State.reset.inflight = [] ∧
  State.reset.rst = false ∧ State.reset.rspOffered = none ∧
  State.reset.reqReady Config.params = true ∧
  (∀ dmax, ceBit (cfgErr dmax State.reset.cfgOrder State.reset.cfgDim) = true ∧
    udBit (cfgErr dmax State.reset.cfgOrder State.reset.cfgDim) = true) ∧
  ∀ (s : State) (lanes : List Word), s.cfgOrder = 0 → s.cfgDim = 0 →
    ∃ (w : Work) (r : Response) (n : Nat),
      exec (.hidx lanes) s = .next { s with
        inflight := s.inflight ++ [.hidx w (some r)], cur := s.inflight.length, draws := n } ∧
      r.err = 0b101#3 ∧ r.oor = List.replicate Config.dmax false

/-- `70_reset_and_hazards.md` section 1: asserting `rst` clears CFG and discards every transaction in flight, and no
response reaches the host; while it is asserted nothing but `rst` changes anything; releasing it leaves the block
as it is. -/
def Obligations.AssertedResetDiscardsEverything : Prop :=
  (∀ (s : State) (sch : List Choice), s.sched = .rst true :: sch →
    step s = .next { s with
      sched := sch, cfgOrder := 0, cfgDim := 0, inflight := [], cur := 0, rst := true }) ∧
  (∀ (s : State) (sch : List Choice) (ch : Choice), s.rst = true → s.sched = ch :: sch →
    (∀ level, ch ≠ .rst level) → step s = .next { s with sched := sch }) ∧
  (∀ (s : State) (sch : List Choice), s.sched = .rst false :: sch →
    step s = .next { s with sched := sch, rst := false })

/-- Rule R202: only an accepted CFGWR and an asserted `rst` change CFG, and they leave in it what they say. -/
def Obligations.OnlyCfgwrAndResetChangeCfg : Prop :=
  ∀ s t : State, step s = .next t → (t.cfgOrder ≠ s.cfgOrder ∨ t.cfgDim ≠ s.cfgDim) →
    (nextChoice s = some (.rst true) ∧ t.cfgOrder = 0 ∧ t.cfgDim = 0) ∨
    (nextChoice s = some .accept ∧
      ∃ r rest, s.reqs = r :: rest ∧
        decodeRequest Config.dmax r = .ok (.cfgwr t.cfgOrder t.cfgDim))

/-! ## Invariants and whole-machine results -/

/-- The invariant holds right after reset, for every block. -/
def Obligations.InvariantHoldsAtReset : Prop :=
  ∀ c : Config.Params, Inv c State.reset

/-- Every step of the machine keeps the invariant: room, sound transactions (a live one holds a valid configuration
and, after VAL, a valid point; a finished one agrees with its response, whose index is in range), possible error
vectors only, and the reset state while `rst` is asserted. -/
def Obligations.EveryStepKeepsTheInvariant : Prop :=
  ∀ s t : State, Inv Config.params s → step s = .next t → Inv Config.params t

/-- Rules R134, R174, R207: no block, whatever its DMAX and DEPTH, ever stops in a state that meets the invariant: it
has a next state, which meets the invariant again. -/
def Obligations.NoBlockEverStops : Prop :=
  ∀ (c : Config.Params) (s : State), Inv c s → ∃ t, stepAt c s = .next t ∧ Inv c t

/-- Rules R57 (4), R82: outside reset, requests become responses one for one and in request order.  The number of
requests to come, in flight and delivered never changes, and a complete response keeps its place and its
value. -/
def Obligations.ResponsesAreFinalAndCounted : Prop :=
  ∀ s t : State, step s = .next t → nextChoice s ≠ some (.rst true) →
    t.delivered.length + t.inflight.length + t.reqs.length =
      s.delivered.length + s.inflight.length + s.reqs.length ∧
    ∀ (j : Nat) (r : Response),
      (responseLog s)[j]? = some (some r) → (responseLog t)[j]? = some (some r)

/-- Rules R57, R141, R145, R150: what a transaction will answer is fixed at its acceptance.  A step outside reset
keeps the answers of all transactions in flight; or delivers the oldest, giving its answer; or accepts one
request, whose answer is the one-step function of the request and of CFG as it stands. -/
def Obligations.EveryStepKeepsTheAnswers : Prop :=
  ∀ s t : State, Inv Config.params s → step s = .next t → nextChoice s ≠ some (.rst true) →
    (t.inflight.map Txn.answer = s.inflight.map Txn.answer ∧ t.delivered = s.delivered ∧
      t.reqs = s.reqs ∧ t.cfgOrder = s.cfgOrder ∧ t.cfgDim = s.cfgDim) ∨
    (∃ x rest r, s.inflight = x :: rest ∧ t.inflight = rest ∧ t.reqs = s.reqs ∧
      t.cfgOrder = s.cfgOrder ∧ t.cfgDim = s.cfgDim ∧
      t.delivered = s.delivered ++ [r] ∧ r.Gives x.answer) ∨
    (∃ r rest i a, s.reqs = r :: rest ∧ t.reqs = rest ∧ t.delivered = s.delivered ∧
      decodeRequest Config.dmax r = .ok i ∧ acceptAnswer Config.dmax s i = some a ∧
      t.inflight.map Txn.answer = s.inflight.map Txn.answer ++ [a])

/-- Rules R57, R145, R150, the headline: for every block and every schedule without reset, however acceptances,
stages of different transactions and deliveries interleave, the responses delivered and the answers in flight are
those of the accepted requests served one after the other, each HIDX under the last CFGWR before it. -/
def Obligations.AnyScheduleServesRequestsInOrder : Prop :=
  ∀ (c : Config.Params) (n : Nat) (s t : State), c.wf → Inv c s → s.inflight = [] →
    (∀ level, .rst level ∉ s.sched) → Host.Core.run (blockCore c) n s = .next t →
    ∃ (m : Nat) (out : List Response) (a : List Answer),
      m ≤ s.reqs.length ∧ t.reqs = s.reqs.drop m ∧ t.delivered = s.delivered ++ out ∧
      List.Forall₂ Response.Gives out a ∧
      serve c.dmax s.cfgOrder s.cfgDim (s.reqs.take m) = a ++ t.inflight.map Txn.answer

/-- Rule R207, progress, for a block left to itself and a host that takes every response (the model's order with an
empty schedule, log entry 4): every request offered or in flight gets its response in a bounded number of
steps. -/
def Obligations.EveryRequestIsAnswered : Prop :=
  ∀ (c : Config.Params) (s : State), c.wf → Inv c s → s.rst = false → s.sched = [] →
    ∃ (n : Nat) (t : State), n ≤ 6 * s.inflight.length + 7 * s.reqs.length ∧
      Host.Core.run (blockCore c) n s = .next t ∧ t.inflight = [] ∧ t.reqs = [] ∧
      t.delivered.length = s.delivered.length + s.inflight.length + s.reqs.length

/-- Rules R85, R203: on an idle block, in whatever configuration, the pseudo-instruction HILBERT_INDEX leads in at most
nine steps of the model's own order (log entry 4) to exactly two responses: the check of the pair, and the answer
of the point under that pair. -/
def Obligations.PseudoInstructionAnswersThePoint : Prop :=
  ∀ (c : Config.Params) (s : State) (xs : List Word) (order dim : BitVec 6), c.wf → Inv c s →
    s.rst = false → s.sched = [] → s.inflight = [] → xs.length ≤ c.dmax →
    s.reqs = Asm.hilbertRequests c.dmax xs order dim →
    ∃ (n : Nat) (t : State) (r1 r2 : Response), n ≤ 9 ∧
      Host.Core.run (blockCore c) n s = .next t ∧ t.inflight = [] ∧ t.reqs = [] ∧
      t.cfgOrder = order ∧ t.cfgDim = dim ∧ t.delivered = s.delivered ++ [r1, r2] ∧
      r1.Gives (cfgwrAnswer c.dmax order dim) ∧
      r2.Gives (hidxAnswer c.dmax order dim (xs ++ List.replicate (c.dmax - xs.length) 0))

/-! ## The function computed -/

/-- Rules R174, R175: the five error vectors; OOR exactly with a named lane, never with CE or UD; an index exactly
without error. -/
def Obligations.ErrorVectorsAreTheFive : Prop :=
  ∀ (dmax : Nat) (ord dim : BitVec 6) (lanes : List Word), lanes.length = dmax →
    LegalErr (hidxAnswer dmax ord dim lanes).err ∧
    (hidxAnswer dmax ord dim lanes).oor.length = dmax ∧
    ((hidxAnswer dmax ord dim lanes).oor.any id = true ↔ (hidxAnswer dmax ord dim lanes).err = 2#3) ∧
    ((hidxAnswer dmax ord dim lanes).err = 2#3 ↔
      ValidConfig dmax ord dim ∧ ¬ ValidPoint ord dim lanes) ∧
    ((hidxAnswer dmax ord dim lanes).idx.isSome = true ↔
      ValidConfig dmax ord dim ∧ ValidPoint ord dim lanes) ∧
    ((hidxAnswer dmax ord dim lanes).idx.isSome = true ↔ (hidxAnswer dmax ord dim lanes).err = 0) ∧
    LegalErr (cfgwrAnswer dmax ord dim).err ∧ (cfgwrAnswer dmax ord dim).err ≠ 2#3

/-- Rule R146: the response to a HIDX is a function of its DIM meaningful lanes and of ORDER and DIM; the lanes from
DIM on have no effect. -/
def Obligations.SpareLanesHaveNoEffect : Prop :=
  ∀ (dmax : Nat) (ord dim : BitVec 6) (lanes lanes' : List Word),
    lanes.length = dmax → lanes'.length = dmax →
    (∀ i < dim.toNat, laneAt lanes i = laneAt lanes' i) →
    hidxAnswer dmax ord dim lanes = hidxAnswer dmax ord dim lanes'

/-- Rule R148: for valid inputs the index is below `2^(ORDER*DIM)`.  That its bit 63 is 0 is the inference that rules
R21 and R133 mark as their own. -/
def Obligations.HilbertIndexIsInRange : Prop :=
  ∀ (ord dim : BitVec 6) (x : List Word), ValidConfig x.length ord dim → ValidPoint ord dim x →
    (hilbertIndex ord dim x).toNat < 2 ^ (ord.toNat * dim.toNat) ∧
    (hilbertIndex ord dim x).getLsbD 63 = false

/-- Rule R147, injectivity: two valid points with one index under one configuration are the same point. -/
def Obligations.HilbertIndexIsInjective : Prop :=
  ∀ (ord dim : BitVec 6) (x y : List Word), ValidConfig x.length ord dim → x.length = y.length →
    ValidPoint ord dim x → ValidPoint ord dim y →
    hilbertIndex ord dim x = hilbertIndex ord dim y → ∀ i < dim.toNat, laneAt x i = laneAt y i

/-- Rule R136: every number below `2^(ORDER*DIM)` is the index of a valid point, so with injectivity the transform is
a bijection between the valid points and the numbers of the range. -/
def Obligations.HilbertIndexIsOntoTheRange : Prop :=
  ∀ (ord dim : BitVec 6) (n : Nat), ValidConfig dim.toNat ord dim →
    n < 2 ^ (ord.toNat * dim.toNat) →
    ∃ x : List Word, x.length = dim.toNat ∧ ValidPoint ord dim x ∧ (hilbertIndex ord dim x).toNat = n

/-- `95_test_vectors.md` section 1.1, the source's boundary test at ORDER = 1, DIM = 2, whatever the spare lane
holds. -/
def Obligations.FirstOrderCurve : Prop :=
  ∀ j : Word,
    hidxAnswer 3 1 2 [0, 0, j] = { err := 0, oor := [false, false, false], idx := some 0 } ∧
    hidxAnswer 3 1 2 [0, 1, j] = { err := 0, oor := [false, false, false], idx := some 1 } ∧
    hidxAnswer 3 1 2 [1, 0, j] = { err := 0, oor := [false, false, false], idx := some 3 } ∧
    hidxAnswer 3 1 2 [1, 1, j] = { err := 0, oor := [false, false, false], idx := some 2 }

/-- Rule R149, the form that holds: the points of consecutive indices are neighbouring cells, which plain interleaving
does not achieve.  The spec found it by enumerating some configurations and marks it as its own inference, "not
proved here for all configurations"; this says it of every valid one. -/
def Obligations.ConsecutiveIndicesAreNeighbours : Prop :=
  (∀ (ord dim : BitVec 6) (x y : List Word), ValidConfig x.length ord dim → x.length = y.length →
    ValidPoint ord dim x → ValidPoint ord dim y →
    (hilbertIndex ord dim y).toNat = (hilbertIndex ord dim x).toNat + 1 → Neighbours dim.toNat x y) ∧
  ∃ (ord dim : BitVec 6) (x y : List Word), ValidConfig x.length ord dim ∧ x.length = y.length ∧
    ValidPoint ord dim x ∧ ValidPoint ord dim y ∧
    (plainIndex ord dim y).toNat = (plainIndex ord dim x).toNat + 1 ∧ ¬ Neighbours dim.toNat x y

/-- Rule R149 and conflict C9, three rows of the spec's enumeration: over all pairs of adjacent cells the mean index
difference is larger for the Hilbert index than for plain interleaving, so the averaged form of Locality is no
theorem, while the median is smaller. -/
def Obligations.AveragedLocalityFails : Prop :=
  LocalityRow 2 2 24 1 13 2 6 ∧ LocalityRow 3 2 112 1 53 2 22 ∧ LocalityRow 2 3 144 3 59 4 28
end

