-- ==== Sys2Proof/Laws/Flags.lean ====
section
/-! SUPPORT. What the flag computations say in plain numbers (rules R9, R28, R33, R144). -/

namespace Sys2Proof.Machine

theorem cfgCE_iff (order dim : BitVec 6) :
    cfgCE order dim = true ↔ order.toNat = 0 ∨ 64 ≤ dim.toNat * order.toNat := by
  simp [cfgCE, BitVec.toNat_eq]

theorem cfgUD_iff (dmax : Nat) (dim : BitVec 6) :
    cfgUD dmax dim = true ↔ dim.toNat < 2 ∨ dmax < dim.toNat := by
  simp [cfgUD]

@[simp] theorem ceBit_errVec (ud oor ce : Bool) : ceBit (errVec ud oor ce) = ce := by
  cases ud <;> cases oor <;> cases ce <;> rfl

@[simp] theorem oorBit_errVec (ud oor ce : Bool) : oorBit (errVec ud oor ce) = oor := by
  cases ud <;> cases oor <;> cases ce <;> rfl

@[simp] theorem udBit_errVec (ud oor ce : Bool) : udBit (errVec ud oor ce) = ud := by
  cases ud <;> cases oor <;> cases ce <;> rfl

@[simp] theorem errVec_eq_zero (ud oor ce : Bool) :
    errVec ud oor ce = 0#3 ↔ ud = false ∧ oor = false ∧ ce = false := by
  cases ud <;> cases oor <;> cases ce <;> decide

theorem errOOR_eq : errOOR = 2#3 := rfl

/-- The ERR of a configuration is 0 exactly when the configuration is valid (rules R9, R33). -/
theorem cfgErr_eq_zero_iff (dmax : Nat) (order dim : BitVec 6) :
    cfgErr dmax order dim = 0 ↔ ValidConfig dmax order dim := by
  have hce := cfgCE_iff order dim
  have hud := cfgUD_iff dmax dim
  show errVec (cfgUD dmax dim) false (cfgCE order dim) = 0#3 ↔ _
  rw [errVec_eq_zero]
  cases h1 : cfgUD dmax dim <;> cases h2 : cfgCE order dim <;> simp_all [ValidConfig] <;> omega

/-- A configuration error is CE, UD or both, never OOR (rules R33, R174). -/
theorem cfgErr_cases (dmax : Nat) (order dim : BitVec 6) :
    cfgErr dmax order dim = 0#3 ∨ cfgErr dmax order dim = 1#3 ∨
      cfgErr dmax order dim = 4#3 ∨ cfgErr dmax order dim = 5#3 := by
  unfold cfgErr
  cases cfgUD dmax dim <;> cases cfgCE order dim <;> decide

theorem outOfRange_iff (ord : BitVec 6) (v : Word) :
    outOfRange ord v = true ↔ 2 ^ ord.toNat ≤ v.toNat := by
  simp only [outOfRange, bne_iff_ne, ne_eq, BitVec.toNat_eq, BitVec.toNat_ushiftRight,
    Nat.shiftRight_eq_div_pow]
  simp [Nat.div_eq_zero_iff]

theorem pointValid_iff (w : Work) : pointValid w = true ↔ ValidPoint w.ord w.dim w.x := by
  simp only [pointValid, List.all_eq_true, List.mem_range, Bool.not_eq_true', ValidPoint]
  refine forall₂_congr fun i _ => ?_
  rw [← Bool.not_eq_true, outOfRange_iff, not_le]

theorem configValid_iff (w : Work) : configValid w = true ↔ ValidConfig w.x.length w.ord w.dim := by
  rw [configValid, beq_iff_eq, cfgErr_eq_zero_iff]

theorem stageDomain_iff (w : Work) : stageDomain w = true ↔ InDomain w := by
  simp [stageDomain, configValid_iff, pointValid_iff, InDomain]

@[simp] theorem oorMask_length (w : Work) : (oorMask w).length = w.oor.length := by
  simp [oorMask]

/-- Bit `i` of the mask of VAL (rule R144). -/
theorem oorMask_getD (w : Work) (i : Nat) :
    (oorMask w).getD i false = true ↔
      i < w.oor.length ∧ i < w.dim.toNat ∧ 2 ^ w.ord.toNat ≤ (laneAt w.x i).toNat := by
  simp only [oorMask, List.getD_eq_getElem?_getD, List.getElem?_map]
  by_cases h : i < w.oor.length
  · simp [h, outOfRange_iff]
  · simp [h]

/-- VAL finds an offender exactly when the point is invalid, if every lane has its bit (rule R144). -/
theorem oorMask_any_iff (w : Work) (h : w.dim.toNat ≤ w.oor.length) :
    (oorMask w).any id = true ↔ ¬ ValidPoint w.ord w.dim w.x := by
  simp only [oorMask, List.any_map, List.any_eq_true, List.mem_range, Function.comp, id_eq,
    Bool.and_eq_true, decide_eq_true_eq, outOfRange_iff, ValidPoint, not_forall, not_lt]
  constructor
  · rintro ⟨i, -, hi, hr⟩
    exact ⟨i, hi, hr⟩
  · rintro ⟨i, hi, hr⟩
    exact ⟨i, by omega, hi, hr⟩

/-- Without an offender the mask is all 0. -/
theorem oorMask_eq_noOor (w : Work) (h : (oorMask w).any id = false) :
    oorMask w = noOor w.oor.length := by
  have h' := List.any_eq_false.1 h
  refine List.eq_replicate_iff.2 ⟨by simp, fun b hb => ?_⟩
  simpa using h' b hb

@[simp] theorem noOor_length (n : Nat) : (noOor n).length = n := by simp [noOor]

@[simp] theorem noOor_any (n : Nat) : (noOor n).any id = false := by simp [noOor]

theorem noOor_getD (n i : Nat) : (noOor n).getD i false = false := by
  simp only [noOor, List.getD_eq_getElem?_getD, List.getElem?_replicate]
  split <;> rfl

/-- A valid ORDER is at most 31 (rule R9). -/
theorem ValidConfig.order_le {dmax : Nat} {ord dim : BitVec 6} (h : ValidConfig dmax ord dim) :
    ord.toNat ≤ 31 := by
  obtain ⟨-, h2, -, h4⟩ := h
  nlinarith

end Sys2Proof.Machine
end

