-- ==== Sys2Proof/Laws/Lanes.lean ====
section
/-! SUPPORT. Reading and writing lanes, and the masks of the rounds as powers of two (rules R16, R24, R101). -/

namespace Sys2Proof.Machine

/-! ## Lanes -/

@[simp] theorem setLane_length (x : List Word) (i : Nat) (v : Word) :
    (setLane x i v).length = x.length := by
  simp [setLane]

/-- A lane reads back what was written to it. -/
theorem laneAt_setLane_self {x : List Word} {i : Nat} (v : Word) (h : i < x.length) :
    laneAt (setLane x i v) i = v := by
  simp [laneAt, setLane, h]

/-- A write leaves every other lane alone. -/
theorem laneAt_setLane_of_ne {x : List Word} {i j : Nat} (v : Word) (h : i ≠ j) :
    laneAt (setLane x i v) j = laneAt x j := by
  simp [laneAt, setLane, h]

/-- There is no lane beyond the end to write. -/
theorem setLane_of_le {x : List Word} {i : Nat} (v : Word) (h : x.length ≤ i) :
    setLane x i v = x := by
  simp [setLane, List.set_eq_of_length_le h]

theorem laneAt_of_le {x : List Word} {i : Nat} (h : x.length ≤ i) : laneAt x i = 0 := by
  simp [laneAt, h]

/-- Writing a lane with what it holds changes nothing. -/
@[simp] theorem setLane_laneAt (x : List Word) (i : Nat) : setLane x i (laneAt x i) = x := by
  by_cases h : i < x.length
  · apply List.ext_getElem (by simp)
    intro j h1 h2
    simp only [setLane, laneAt, List.getElem_set]
    split
    · next e => subst e; simp [h]
    · rfl
  · exact setLane_of_le _ (not_lt.1 h)

/-- Lists of lanes are equal when their lanes are. -/
theorem lanes_ext {x y : List Word} (hl : x.length = y.length)
    (h : ∀ i < x.length, laneAt x i = laneAt y i) : x = y := by
  apply List.ext_getElem hl
  intro i h1 h2
  have := h i h1
  simpa [laneAt, h1, h2] using this

/-! ## Masks -/

/-- The mask with bit `k` set. -/
def bitMask (k : Nat) : Word := BitVec.ofNat 32 (2 ^ k)

theorem bitMask_getLsbD (k j : Nat) : (bitMask k).getLsbD j = decide (j < 32 ∧ k = j) := by
  rw [bitMask, BitVec.getLsbD_ofNat, Nat.testBit_two_pow, Bool.decide_and]

theorem lowMask_getLsbD (k j : Nat) : (lowMask k).getLsbD j = decide (j < 32 ∧ j < k) := by
  rw [lowMask, BitVec.getLsbD_ofNat, Nat.testBit_two_pow_sub_one, Bool.decide_and]

theorem bitMask_toNat {k : Nat} (h : k < 32) : (bitMask k).toNat = 2 ^ k := by
  rw [bitMask, BitVec.toNat_ofNat, Nat.mod_eq_of_lt (Nat.pow_lt_pow_right (by decide) h)]

/-- `P = Q - 1` is the mask of the bits below the bit of `Q` (rule R101). -/
theorem bitMask_sub_one {k : Nat} (h : k < 32) : bitMask k - 1 = lowMask k := by
  apply BitVec.eq_of_toNat_eq
  have h1 : 2 ^ k < 2 ^ 32 := Nat.pow_lt_pow_right (by decide) h
  have h2 : 1 ≤ 2 ^ k := Nat.one_le_two_pow
  rw [BitVec.toNat_sub, bitMask_toNat h, lowMask, BitVec.toNat_ofNat]
  simp
  omega

/-- Halving the mask (rule R100). -/
theorem bitMask_shiftRight {k : Nat} (h : k + 1 < 32) : bitMask (k + 1) >>> (1 : Nat) = bitMask k := by
  apply BitVec.eq_of_toNat_eq
  rw [BitVec.toNat_ushiftRight, bitMask_toNat h, bitMask_toNat (by omega), Nat.shiftRight_eq_div_pow,
    pow_succ]
  simp

/-- `Q > 1` holds exactly for the masks of bits 1 and up (rule R103). -/
theorem one_lt_bitMask {k : Nat} (h : k < 32) : 1 < bitMask k ↔ 0 < k := by
  rw [BitVec.lt_def, bitMask_toNat h]
  show 1 < 2 ^ k ↔ _
  rw [Nat.one_lt_two_pow_iff]
  omega

/-- "bit `Q` is set" is bit `k` (rule R101). -/
theorem and_bitMask_ne_zero {k : Nat} (h : k < 32) (v : Word) :
    v &&& bitMask k ≠ 0 ↔ v.getLsbD k = true := by
  constructor
  · intro hne
    by_contra hk
    apply hne
    apply BitVec.eq_of_getLsbD_eq
    intro j hj
    rw [BitVec.getLsbD_and, bitMask_getLsbD]
    by_cases e : k = j
    · subst e; simp_all
    · simp [e]
  · intro hk he
    have := congrArg (fun u : Word => u.getLsbD k) he
    simp only [BitVec.getLsbD_and, bitMask_getLsbD, hk] at this
    simp [h] at this

/-- The first mask is that of bit ORDER-1 (rule R100). -/
theorem startMask_eq {ord : BitVec 6} (h1 : 1 ≤ ord.toNat) (h : ord.toNat ≤ 32) :
    startMask ord = bitMask (ord.toNat - 1) := by
  apply BitVec.eq_of_toNat_eq
  rw [bitMask_toNat (by omega), startMask, BitVec.toNat_shiftLeft]
  have : 2 ^ (ord.toNat - 1) < 2 ^ 32 := Nat.pow_lt_pow_right (by decide) (by omega)
  simp only [BitVec.toNat_ofNat]
  rw [Nat.shiftLeft_eq, Nat.mod_eq_of_lt (a := 1) (by decide), Nat.one_mul, Nat.mod_eq_of_lt this]

/-! ## Splicing -/

theorem splice_getLsbD (k : Nat) (lo hi : Word) (j : Nat) :
    (splice k lo hi).getLsbD j = if j < k then lo.getLsbD j else hi.getLsbD j := by
  by_cases hj : j < 32
  · simp only [splice, BitVec.getLsbD_or, BitVec.getLsbD_and, BitVec.getLsbD_not, lowMask_getLsbD]
    by_cases hk : j < k <;> simp [-BitVec.getLsbD_eq_getElem, hj, hk]
  · simp [splice, BitVec.getLsbD_of_ge _ _ (not_lt.1 hj)]

/-- The exchange through `t` puts the low bits of the other value in place (rule R105 (e)). -/
theorem xor_exchange (k : Nat) (a b : Word) :
    a ^^^ ((a ^^^ b) &&& lowMask k) = splice k b a := by
  apply BitVec.eq_of_getLsbD_eq
  intro j hj
  rw [splice_getLsbD]
  simp only [BitVec.getLsbD_xor, BitVec.getLsbD_and, lowMask_getLsbD]
  by_cases hk : j < k <;> simp [-BitVec.getLsbD_eq_getElem, hj, hk]

theorem splice_self (k : Nat) (a : Word) : splice k a a = a := by
  apply BitVec.eq_of_getLsbD_eq
  intro j _
  simp [splice_getLsbD]

/-- A value is below `2^n` exactly when its bits from `n` on are 0. -/
theorem toNat_lt_iff_bits {m : Nat} (v : BitVec m) (n : Nat) :
    v.toNat < 2 ^ n ↔ ∀ j, n ≤ j → v.getLsbD j = false := by
  constructor
  · intro h j hj
    rw [BitVec.getLsbD, Nat.testBit_lt_two_pow]
    exact lt_of_lt_of_le h (Nat.pow_le_pow_right (by decide) hj)
  · intro h
    exact Nat.lt_pow_two_of_testBit _ fun j hj => h j hj

end Sys2Proof.Machine
end

