-- ==== Sys2Proof/Laws/Stages.lean ====
section
/-! SUPPORT. What each stage does to its working copy, said without the scalars: EWR as the rounds bit by bit, GRAY,
FCOR and PACK lane by lane, that each keeps a valid point valid, and that the index depends on the point and the
sampled configuration only. -/

namespace Sys2Proof.Machine

/-! ## EWR: one visit -/

theorem ewrVisit_other (w : Work) (i : Nat) :
    (ewrVisit w i).q = w.q ∧ (ewrVisit w i).p = w.p ∧ (ewrVisit w i).idx = w.idx ∧
      (ewrVisit w i).ord = w.ord ∧ (ewrVisit w i).dim = w.dim ∧ (ewrVisit w i).stg = w.stg ∧
      (ewrVisit w i).err = w.err ∧ (ewrVisit w i).oor = w.oor ∧
      (ewrVisit w i).lane = BitVec.ofNat 6 i := by
  unfold ewrVisit
  split <;> simp

/-- A visit in the round of bit `k` is the visit said bit by bit (rules R101, R105). -/
theorem ewrVisit_x {w : Work} {k : Nat} (hk : k < 32) (hq : w.q = bitMask k) (hp : w.p = lowMask k)
    (i : Nat) : (ewrVisit w i).x = visitByBit k w.x i := by
  unfold ewrVisit visitByBit
  rw [hq]
  by_cases hb : laneAt w.x i &&& bitMask k ≠ 0
  · rw [if_pos hb, if_pos ((and_bitMask_ne_zero hk _).1 hb), hp]
  · rw [if_neg hb, if_neg (fun h => hb ((and_bitMask_ne_zero hk _).2 h)), hp]
    simp only [xor_exchange]
    by_cases hl : i < w.x.length
    · by_cases h0 : i = 0
      · subst h0
        simp only [splice_self, setLane_laneAt, BitVec.xor_self]
        simp
      · rw [laneAt_setLane_of_ne _ (Ne.symm h0), BitVec.xor_comm (laneAt w.x 0), xor_exchange]
    · exact (setLane_of_le _ (by simp only [setLane_length]; omega)).trans
        (setLane_of_le _ (by simp only [setLane_length]; omega)).symm

@[simp] theorem visitByBit_length (k : Nat) (x : List Word) (i : Nat) :
    (visitByBit k x i).length = x.length := by
  unfold visitByBit
  split <;> simp

/-- A visit touches lane 0 and its own lane, and in them only bits below `k` (rule R105 (a), (d)). -/
theorem visitByBit_bits (k : Nat) (x : List Word) (i j b : Nat) (h : k ≤ b) :
    (laneAt (visitByBit k x i) j).getLsbD b = (laneAt x j).getLsbD b := by
  have hm : (lowMask k).getLsbD b = false := by simp [lowMask_getLsbD, not_lt.2 h]
  have key : ∀ (y : List Word) (l : Nat) (v : Word), v.getLsbD b = (laneAt y l).getLsbD b →
      (laneAt (setLane y l v) j).getLsbD b = (laneAt y j).getLsbD b := by
    intro y l v hv
    by_cases e : l = j
    · subst e
      by_cases hl : l < y.length
      · rw [laneAt_setLane_self v hl, hv]
      · rw [setLane_of_le v (not_lt.1 hl)]
    · rw [laneAt_setLane_of_ne v e]
  unfold visitByBit
  split
  · exact key _ _ _ (by rw [BitVec.getLsbD_xor, hm, Bool.xor_false])
  · have h1 := key x 0 (splice k (laneAt x i) (laneAt x 0)) (by
      rw [splice_getLsbD, if_neg (not_lt.2 h)])
    rw [← h1]
    refine key _ _ _ ?_
    rw [splice_getLsbD, if_neg (not_lt.2 h)]
    by_cases e : 0 = i
    · subst e; rw [splice_self, setLane_laneAt]
    · rw [laneAt_setLane_of_ne _ e]

theorem visitByBit_lane_of_ne (k : Nat) (x : List Word) {i j : Nat} (h0 : j ≠ 0) (h : j ≠ i) :
    laneAt (visitByBit k x i) j = laneAt x j := by
  unfold visitByBit
  split
  · rw [laneAt_setLane_of_ne _ (Ne.symm h0)]
  · rw [laneAt_setLane_of_ne _ (Ne.symm h), laneAt_setLane_of_ne _ (Ne.symm h0)]

/-- A visit undoes itself: the bit it tests is not among those it changes (rule R105 (e)). -/
theorem visitByBit_involutive (k : Nat) {x : List Word} {i : Nat} (hi : i < x.length) :
    visitByBit k (visitByBit k x i) i = x := by
  have hb := visitByBit_bits k x i i k (le_refl k)
  have h0 : 0 < x.length := by omega
  generalize hy : visitByBit k x i = y at hb ⊢
  unfold visitByBit at hy ⊢
  rw [hb]
  split at hy
  · next h =>
    rw [if_pos h, ← hy]
    apply lanes_ext (by simp)
    intro j _
    by_cases e : 0 = j
    · subst e
      rw [laneAt_setLane_self _ (by simpa using h0), laneAt_setLane_self _ h0, BitVec.xor_assoc,
        BitVec.xor_self, BitVec.xor_zero]
    · rw [laneAt_setLane_of_ne _ e, laneAt_setLane_of_ne _ e]
  · next h =>
    rw [if_neg h, ← hy]
    apply lanes_ext (by simp)
    intro j _
    by_cases e0 : 0 = i
    · subst e0
      simp [splice_self]
    · have hl0 : laneAt (setLane (setLane x 0 (splice k (laneAt x i) (laneAt x 0))) i
          (splice k (laneAt x 0) (laneAt x i))) 0 = splice k (laneAt x i) (laneAt x 0) := by
        rw [laneAt_setLane_of_ne _ (Ne.symm e0), laneAt_setLane_self _ h0]
      have hli : laneAt (setLane (setLane x 0 (splice k (laneAt x i) (laneAt x 0))) i
          (splice k (laneAt x 0) (laneAt x i))) i = splice k (laneAt x 0) (laneAt x i) := by
        rw [laneAt_setLane_self _ (by simpa using hi)]
      have hss : ∀ a b : Word, splice k (splice k a b) (splice k b a) = a := by
        intro a b
        apply BitVec.eq_of_getLsbD_eq
        intro m _
        simp only [splice_getLsbD]
        by_cases hm : m < k <;> simp [-BitVec.getLsbD_eq_getElem, hm]
      rw [hl0, hli, hss, hss]
      by_cases ei : i = j
      · subst ei; rw [laneAt_setLane_self _ (by simpa using hi)]
      · rw [laneAt_setLane_of_ne _ ei]
        by_cases ej : 0 = j
        · subst ej; rw [laneAt_setLane_self _ (by simpa using h0)]
        · rw [laneAt_setLane_of_ne _ ej, laneAt_setLane_of_ne _ ei, laneAt_setLane_of_ne _ ej]

/-! ## EWR: one round, all rounds -/

/-- The visits of one round over a list of lanes. -/
def visitLanes (k : Nat) (is : List Nat) (x : List Word) : List Word := is.foldl (visitByBit k) x

theorem foldl_ewrVisit {k : Nat} (hk : k < 32) (is : List Nat) : ∀ w : Work, w.q = bitMask k →
    w.p = lowMask k →
    (is.foldl ewrVisit w).x = visitLanes k is w.x ∧ (is.foldl ewrVisit w).q = w.q ∧
      (is.foldl ewrVisit w).p = w.p ∧ (is.foldl ewrVisit w).idx = w.idx ∧
      (is.foldl ewrVisit w).ord = w.ord ∧ (is.foldl ewrVisit w).dim = w.dim ∧
      (is.foldl ewrVisit w).stg = w.stg ∧ (is.foldl ewrVisit w).err = w.err ∧
      (is.foldl ewrVisit w).oor = w.oor := by
  induction is with
  | nil => intro w _ _; simp [visitLanes]
  | cons i is ih =>
    intro w hq hp
    obtain ⟨h1, h2, h3, h4, h5, h6, h7, h8, -⟩ := ewrVisit_other w i
    obtain ⟨g0, g1, g2, g3, g4, g5, g6, g7, g8⟩ := ih (ewrVisit w i) (h1.trans hq) (h2.trans hp)
    simp only [List.foldl_cons]
    refine ⟨?_, g1.trans h1, g2.trans h2, g3.trans h3, g4.trans h4, g5.trans h5, g6.trans h6,
      g7.trans h7, g8.trans h8⟩
    rw [g0, ewrVisit_x hk hq hp]
    rfl

/-- One round is the visits of bit `k`, and the mask of bit `k-1` follows (rules R100, R102). -/
theorem ewrRound_spec {w : Work} {k : Nat} (hk : k < 32) (hq : w.q = bitMask k) :
    (ewrRound w).x = visitLanes k (List.range w.dim.toNat) w.x ∧
      (ewrRound w).q = w.q >>> (1 : Nat) ∧ (ewrRound w).idx = w.idx ∧ (ewrRound w).ord = w.ord ∧
      (ewrRound w).dim = w.dim ∧ (ewrRound w).err = w.err ∧ (ewrRound w).oor = w.oor := by
  have hp : w.q - 1 = lowMask k := by rw [hq, bitMask_sub_one hk]
  obtain ⟨g0, g1, -, g3, g4, g5, -, g7, g8⟩ :=
    foldl_ewrVisit hk (List.range w.dim.toNat) { w with p := w.q - 1 } hq hp
  exact ⟨g0, by simp only [ewrRound]; rw [g1], g3, g4, g5, g7, g8⟩

/-- The rounds of bits `k` down to 1 (rule R103). -/
def roundsFrom (dim : Nat) : Nat → List Word → List Word
  | 0, x => x
  | k + 1, x => roundsFrom dim k (visitLanes (k + 1) (List.range dim) x)

theorem ewrRounds_spec : ∀ (k fuel : Nat) (w : Work), k < 32 → k ≤ fuel → w.q = bitMask k →
    (ewrRounds fuel w).x = roundsFrom w.dim.toNat k w.x ∧ (ewrRounds fuel w).q = 1 ∧
      (ewrRounds fuel w).idx = w.idx ∧ (ewrRounds fuel w).ord = w.ord ∧
      (ewrRounds fuel w).dim = w.dim ∧ (ewrRounds fuel w).err = w.err ∧
      (ewrRounds fuel w).oor = w.oor := by
  intro k
  induction k with
  | zero =>
    intro fuel w _ _ hq
    have hn : ¬ 1 < w.q := by rw [hq, one_lt_bitMask (by decide)]; simp
    have hq1 : w.q = 1 := hq
    cases fuel with
    | zero => exact ⟨rfl, hq1, rfl, rfl, rfl, rfl, rfl⟩
    | succ fuel => rw [ewrRounds, if_neg hn]; exact ⟨rfl, hq1, rfl, rfl, rfl, rfl, rfl⟩
  | succ k ih =>
    intro fuel w hk hf hq
    obtain ⟨fuel, rfl⟩ : ∃ f, fuel = f + 1 := ⟨fuel - 1, by omega⟩
    have hlt : 1 < w.q := by rw [hq, one_lt_bitMask hk]; omega
    obtain ⟨g0, g1, g2, g3, g4, g5, g6⟩ := ewrRound_spec hk hq
    obtain ⟨i0, i1, i2, i3, i4, i5, i6⟩ :=
      ih fuel (ewrRound w) (by omega) (by omega) (by rw [g1, hq, bitMask_shiftRight hk])
    rw [ewrRounds, if_pos hlt]
    exact ⟨by rw [i0, g0, g4]; rfl, i1, i2.trans g2, i3.trans g3, i4.trans g4, i5.trans g5, i6.trans g6⟩

theorem roundsFrom_eq (dim : Nat) : ∀ (k : Nat) (x : List Word),
    roundsFrom dim k x =
      (List.range' 1 k).reverse.foldl (fun x k => (List.range dim).foldl (visitByBit k) x) x := by
  intro k
  induction k with
  | zero => intro x; rfl
  | succ k ih =>
    intro x
    rw [roundsFrom, ih, List.range'_1_concat, List.reverse_append, List.reverse_singleton,
      List.singleton_append, List.foldl_cons, Nat.add_comm 1 k]
    rfl

/-- EWR in the valid domain: the rounds bit by bit, STG 2, and nothing else but the scalars (rules R100, R107). -/
theorem ewr_spec {w : Work} (h1 : 1 ≤ w.ord.toNat) (h2 : w.ord.toNat ≤ 31) :
    (ewr w).x = roundsFrom w.dim.toNat (w.ord.toNat - 1) w.x ∧ (ewr w).q = 1 ∧
      (ewr w).idx = w.idx ∧ (ewr w).ord = w.ord ∧ (ewr w).dim = w.dim ∧ (ewr w).err = w.err ∧
      (ewr w).oor = w.oor ∧ (ewr w).stg = .gray := by
  obtain ⟨g0, g1, g2, g3, g4, g5, g6⟩ :=
    ewrRounds_spec (w.ord.toNat - 1) 32 { w with q := startMask w.ord } (by omega) (by omega)
      (startMask_eq h1 (by omega))
  exact ⟨g0, g1, g2, g3, g4, g5, g6, rfl⟩

theorem visitLanes_length (k : Nat) (is : List Nat) : ∀ x : List Word,
    (visitLanes k is x).length = x.length := by
  induction is with
  | nil => intro x; rfl
  | cons i is ih => intro x; exact (ih _).trans (visitByBit_length k x i)

theorem visitLanes_bits {k b : Nat} (h : k ≤ b) (is : List Nat) : ∀ (x : List Word) (j : Nat),
    (laneAt (visitLanes k is x) j).getLsbD b = (laneAt x j).getLsbD b := by
  induction is with
  | nil => intro x j; rfl
  | cons i is ih => intro x j; exact (ih _ j).trans (visitByBit_bits k x i j b h)

theorem visitLanes_spare {k d : Nat} {is : List Nat} (_ : 0 < d) (h : ∀ i ∈ is, i < d) :
    ∀ (x : List Word) (j : Nat), d ≤ j → laneAt (visitLanes k is x) j = laneAt x j := by
  induction is with
  | nil => intro x j _; rfl
  | cons i is ih =>
    intro x j hj
    have hi := h i (by simp)
    exact (ih (fun i hi => h i (by simp [hi])) _ j hj).trans
      (visitByBit_lane_of_ne k x (by omega) (by omega))

theorem roundsFrom_length (dim : Nat) : ∀ (k : Nat) (x : List Word),
    (roundsFrom dim k x).length = x.length
  | 0, _ => rfl
  | k + 1, x => (roundsFrom_length dim k _).trans (visitLanes_length _ _ x)

theorem roundsFrom_bits (dim : Nat) : ∀ (k b : Nat) (x : List Word) (j : Nat), k ≤ b →
    (laneAt (roundsFrom dim k x) j).getLsbD b = (laneAt x j).getLsbD b
  | 0, _, _, _, _ => rfl
  | k + 1, b, x, j, h =>
    (roundsFrom_bits dim k b _ j (by omega)).trans (visitLanes_bits h _ x j)

theorem roundsFrom_spare {dim : Nat} (hd : 0 < dim) : ∀ (k : Nat) (x : List Word) (j : Nat), dim ≤ j →
    laneAt (roundsFrom dim k x) j = laneAt x j
  | 0, _, _, _ => rfl
  | k + 1, x, j, h =>
    (roundsFrom_spare hd k _ j h).trans
      (visitLanes_spare hd (fun _ hi => List.mem_range.1 hi) x j h)

/-- A change that leaves bits from ORDER-1 on alone keeps a point valid (rules R105 (c), R124). -/
theorem ValidPoint.of_bits {ord dim : BitVec 6} {x y : List Word} (h : ValidPoint ord dim x)
    (hb : ∀ i < dim.toNat, ∀ b, ord.toNat ≤ b → (laneAt y i).getLsbD b = (laneAt x i).getLsbD b) :
    ValidPoint ord dim y := by
  intro i hi
  rw [toNat_lt_iff_bits]
  intro b hbb
  rw [hb i hi b hbb]
  exact (toNat_lt_iff_bits _ _).1 (h i hi) b hbb

theorem ewr_validPoint {w : Work} (h : InDomain w) : ValidPoint w.ord w.dim (ewr w).x := by
  obtain ⟨g0, -⟩ := ewr_spec h.1.1 h.1.order_le
  refine h.2.of_bits fun i _ b hb => ?_
  rw [g0]
  exact roundsFrom_bits _ _ _ _ _ (by have := h.1.1; omega)

theorem ewr_length {w : Work} (h : InDomain w) : (ewr w).x.length = w.x.length := by
  obtain ⟨g0, -⟩ := ewr_spec h.1.1 h.1.order_le
  rw [g0, roundsFrom_length]

/-! ## GRAY -/

theorem grayUpdate_length (x : List Word) (i : Nat) : (grayUpdate x i).length = x.length := by
  simp [grayUpdate]

/-- The pass up to lane `n`: prefix XOR up to `n`, the rest as it was (rules R110, R111). -/
theorem gray_foldl (x : List Word) : ∀ n, n < x.length →
    ((List.range' 1 n).foldl grayUpdate x).length = x.length ∧
    (∀ i ≤ n, laneAt ((List.range' 1 n).foldl grayUpdate x) i = xorUpTo x i) ∧
    ∀ i, n < i → laneAt ((List.range' 1 n).foldl grayUpdate x) i = laneAt x i := by
  intro n
  induction n with
  | zero =>
    intro _
    refine ⟨rfl, fun i hi => ?_, fun i _ => rfl⟩
    obtain rfl : i = 0 := by omega
    rfl
  | succ n ih =>
    intro hn
    obtain ⟨h1, h2, h3⟩ := ih (by omega)
    rw [List.range'_1_concat, List.foldl_append, List.foldl_cons, List.foldl_nil, Nat.add_comm 1 n]
    generalize (List.range' 1 n).foldl grayUpdate x = y at h1 h2 h3 ⊢
    unfold grayUpdate
    refine ⟨by simpa using h1, fun i hi => ?_, fun i hi => ?_⟩
    · by_cases e : n + 1 = i
      · subst e
        rw [laneAt_setLane_self _ (by omega), h3 _ (by omega), Nat.add_sub_cancel, h2 n (le_refl n),
          BitVec.xor_comm]
        rfl
      · rw [laneAt_setLane_of_ne _ e, h2 i (by omega)]
    · rw [laneAt_setLane_of_ne _ (by omega), h3 i (by omega)]

/-- GRAY lane by lane (rules R111, R112). -/
theorem grayLanes_spec {dim : Nat} {x : List Word} (h : 1 ≤ dim) (hl : dim ≤ x.length) :
    (grayLanes dim x).length = x.length ∧
    (∀ i < dim, laneAt (grayLanes dim x) i = xorUpTo x i) ∧
    ∀ i, dim ≤ i → laneAt (grayLanes dim x) i = laneAt x i := by
  obtain ⟨h1, h2, h3⟩ := gray_foldl x (dim - 1) (by omega)
  exact ⟨h1, fun i hi => h2 i (by omega), fun i hi => h3 i (by omega)⟩

theorem xorUpTo_bits {x : List Word} {i b : Nat} (h : ∀ j ≤ i, (laneAt x j).getLsbD b = false) :
    (xorUpTo x i).getLsbD b = false := by
  induction i with
  | zero => exact h 0 (le_refl 0)
  | succ i ih =>
    rw [xorUpTo, BitVec.getLsbD_xor, ih fun j hj => h j (by omega), h (i + 1) (le_refl _)]
    rfl

theorem gray_validPoint {w : Work} (h : InDomain w) : ValidPoint w.ord w.dim (gray w).x := by
  obtain ⟨-, h2, -⟩ := grayLanes_spec (x := w.x) (by have := h.1.2.1; omega) h.1.2.2.1
  intro i hi
  rw [show (gray w).x = grayLanes w.dim.toNat w.x from rfl, h2 i hi, toNat_lt_iff_bits]
  intro b hb
  exact xorUpTo_bits fun j hj => (toNat_lt_iff_bits _ _).1 (h.2 j (by omega)) b hb

/-! ## FCOR -/

theorem fcorRound_other (w : Work) :
    (fcorRound w).x = w.x ∧ (fcorRound w).p = w.p ∧ (fcorRound w).idx = w.idx ∧
      (fcorRound w).ord = w.ord ∧ (fcorRound w).dim = w.dim ∧ (fcorRound w).lane = w.lane ∧
      (fcorRound w).stg = w.stg ∧
      (fcorRound w).err = w.err ∧ (fcorRound w).oor = w.oor ∧
      (fcorRound w).q = w.q >>> (1 : Nat) := by
  simp [fcorRound]

theorem fcorRounds_other : ∀ (fuel : Nat) (w : Work),
    (fcorRounds fuel w).x = w.x ∧ (fcorRounds fuel w).p = w.p ∧ (fcorRounds fuel w).idx = w.idx ∧
      (fcorRounds fuel w).ord = w.ord ∧ (fcorRounds fuel w).dim = w.dim ∧
      (fcorRounds fuel w).lane = w.lane ∧ (fcorRounds fuel w).stg = w.stg ∧
      (fcorRounds fuel w).err = w.err ∧ (fcorRounds fuel w).oor = w.oor
  | 0, w => by simp [fcorRounds]
  | fuel + 1, w => by
    rw [fcorRounds]
    split
    · obtain ⟨h0, h1, h2, h3, h4, h5, h6, h7, h8, -⟩ := fcorRound_other w
      obtain ⟨g0, g1, g2, g3, g4, g5, g6, g7, g8⟩ := fcorRounds_other fuel (fcorRound w)
      exact ⟨g0.trans h0, g1.trans h1, g2.trans h2, g3.trans h3, g4.trans h4, g5.trans h5,
        g6.trans h6, g7.trans h7, g8.trans h8⟩
    · simp

/-- The bits of the correction term after the rounds of bits `k` down to 1 (rule R123). -/
theorem fcorRounds_t : ∀ (k fuel : Nat) (w : Work), k < 32 → k ≤ fuel → w.q = bitMask k → ∀ j,
    (fcorRounds fuel w).t.getLsbD j =
      xor (w.t.getLsbD j) (xorBits (laneAt w.x (w.dim.toNat - 1)) (j + 1) (k - j)) := by
  intro k
  induction k with
  | zero =>
    intro fuel w _ _ hq j
    have hn : ¬ 1 < w.q := by rw [hq, one_lt_bitMask (by decide)]; simp
    cases fuel with
    | zero => simp [fcorRounds, xorBits, -BitVec.getLsbD_eq_getElem]
    | succ fuel => rw [fcorRounds, if_neg hn]; simp [xorBits, -BitVec.getLsbD_eq_getElem]
  | succ k ih =>
    intro fuel w hk hf hq j
    obtain ⟨fuel, rfl⟩ : ∃ f, fuel = f + 1 := ⟨fuel - 1, by omega⟩
    have hlt : 1 < w.q := by rw [hq, one_lt_bitMask hk]; omega
    obtain ⟨h0, -, -, -, h4, -, -, -, -, h9⟩ := fcorRound_other w
    rw [fcorRounds, if_pos hlt, ih fuel (fcorRound w) (by omega) (by omega)
      (by rw [h9, hq, bitMask_shiftRight hk]) j, h0, h4]
    generalize hy : laneAt w.x (w.dim.toNat - 1) = y
    have ht : (fcorRound w).t.getLsbD j =
        xor (w.t.getLsbD j) (y.getLsbD (k + 1) && decide (j < k + 1)) := by
      simp only [fcorRound, hy, hq]
      by_cases hb : y &&& bitMask (k + 1) ≠ 0
      · rw [if_pos hb, bitMask_sub_one hk, BitVec.getLsbD_xor, lowMask_getLsbD,
          (and_bitMask_ne_zero hk y).1 hb, Bool.true_and]
        congr 1
        rw [decide_eq_decide]
        omega
      · rw [if_neg hb]
        have : y.getLsbD (k + 1) = false := by
          rw [← Bool.not_eq_true]
          exact fun h => hb ((and_bitMask_ne_zero hk y).2 h)
        rw [this, Bool.false_and, Bool.xor_false]
    rw [ht, Bool.xor_assoc]
    congr 1
    by_cases hj : j < k + 1
    · rw [show k + 1 - j = (k - j) + 1 by omega, xorBits,
        show j + 1 + (k - j) = k + 1 by omega]
      simp [hj, Bool.xor_comm, -BitVec.getLsbD_eq_getElem]
    · rw [show k + 1 - j = 0 by omega, show k - j = 0 by omega]
      simp [hj, xorBits, -BitVec.getLsbD_eq_getElem]

theorem fcorLanes_spec (t : Word) : ∀ (n : Nat) (x : List Word), n ≤ x.length →
    (fcorLanes n t x).length = x.length ∧
    (∀ i < n, laneAt (fcorLanes n t x) i = laneAt x i ^^^ t) ∧
    ∀ i, n ≤ i → laneAt (fcorLanes n t x) i = laneAt x i := by
  intro n x
  induction n with
  | zero => intro _; exact ⟨rfl, fun i hi => by omega, fun i _ => rfl⟩
  | succ n ih =>
    intro hn
    obtain ⟨h1, h2, h3⟩ := ih (by omega)
    unfold fcorLanes at h1 h2 h3 ⊢
    rw [List.range_succ, List.foldl_append, List.foldl_cons, List.foldl_nil]
    generalize List.foldl _ _ _ = y at h1 h2 h3 ⊢
    refine ⟨by simpa using h1, fun i hi => ?_, fun i hi => ?_⟩
    · by_cases e : n = i
      · subst e; rw [laneAt_setLane_self _ (by omega), h3 n (le_refl n)]
      · rw [laneAt_setLane_of_ne _ e, h2 i (by omega)]
    · rw [laneAt_setLane_of_ne _ (by omega), h3 i (by omega)]

/-- FCOR in the valid domain (rules R120, R122, R123). -/
theorem fcor_spec {w : Work} (h : InDomain w) :
    (∀ j, (fcor w).t.getLsbD j = foldBit w.ord.toNat (laneAt w.x (w.dim.toNat - 1)) j) ∧
    (fcor w).x = fcorLanes w.dim.toNat (fcor w).t w.x ∧
    (fcor w).p = w.p ∧ (fcor w).lane = w.lane ∧
    (fcor w).idx = w.idx ∧ (fcor w).ord = w.ord ∧ (fcor w).dim = w.dim ∧ (fcor w).err = w.err ∧
    (fcor w).oor = w.oor ∧ (fcor w).stg = .pack := by
  obtain ⟨h0, h1, h2, h3, h4, h5, -, h7, h8⟩ :=
    fcorRounds_other 32 { w with t := 0, q := startMask w.ord }
  have ho := h.1.1
  have ho' := h.1.order_le
  refine ⟨fun j => ?_, ?_, h1, h5, h2, h3, h4, h7, h8, rfl⟩
  · have := fcorRounds_t (w.ord.toNat - 1) 32 { w with t := 0, q := startMask w.ord } (by omega)
      (by omega) (startMask_eq ho (by omega)) j
    rw [show (fcor w).t = (fcorRounds 32 { w with t := 0, q := startMask w.ord }).t from rfl, this]
    simp [foldBit]
  · simp only [fcor]
    rw [h0, h4]

theorem foldBit_high {ord : Nat} (y : Word) {j : Nat} (h : ord - 1 ≤ j) : foldBit ord y j = false := by
  rw [foldBit, show ord - 1 - j = 0 by omega, xorBits]

theorem fcor_validPoint {w : Work} (h : InDomain w) : ValidPoint w.ord w.dim (fcor w).x := by
  obtain ⟨h1, h2, -⟩ := fcor_spec h
  obtain ⟨-, g2, -⟩ := fcorLanes_spec (fcor w).t w.dim.toNat w.x h.1.2.2.1
  refine h.2.of_bits fun i hi b hb => ?_
  rw [h2, g2 i hi, BitVec.getLsbD_xor, h1, foldBit_high _ (by omega), Bool.xor_false]

theorem fcor_length {w : Work} (h : InDomain w) : (fcor w).x.length = w.x.length := by
  rw [(fcor_spec h).2.1, (fcorLanes_spec _ _ _ h.1.2.2.1).1]

/-! ## PACK -/

theorem setIdxBit_getLsbD (v : Index) {k : Nat} (b : Bool) (hk : k < 64) (j : Nat) :
    (setIdxBit v k b).getLsbD j = if j = k then b else v.getLsbD j := by
  have h1 : (1#64 <<< k).getLsbD j = decide (j = k) := by
    rw [BitVec.getLsbD_shiftLeft, BitVec.getLsbD_one]
    by_cases e : j = k
    · subst e; simp [hk]
    · have : ¬ (j - k = 0 ∧ k ≤ j) := by omega
      by_cases h : j < k
      · simp [h, e]
      · have : j - k ≠ 0 := by omega
        simp [e, this]
  unfold setIdxBit
  by_cases hj : j < 64
  · cases b
    · simp only [Bool.false_eq_true, if_false, BitVec.getLsbD_and, BitVec.getLsbD_not, h1]
      by_cases e : j = k <;> simp [e, hj, -BitVec.getLsbD_eq_getElem]
    · simp only [if_true, BitVec.getLsbD_or, h1]
      by_cases e : j = k <;> simp [e, -BitVec.getLsbD_eq_getElem]
  · have e : j ≠ k := by omega
    rw [if_neg e, BitVec.getLsbD_of_ge _ _ (not_lt.1 hj), BitVec.getLsbD_of_ge _ _ (not_lt.1 hj)]

/-- The group of bit position `b`, lanes below `n` (rule R131). -/
theorem packGroup_foldl {dim b : Nat} (x : List Word) (v : Index) (hb : (b + 1) * dim ≤ 64) :
    ∀ n ≤ dim, ∀ j,
    ((List.range n).foldl (fun v i => setIdxBit v (packPos dim b i) ((laneAt x i).getLsbD b)) v).getLsbD j =
      if b * dim + (dim - n) ≤ j ∧ j < (b + 1) * dim then
        (laneAt x (dim - 1 - (j - b * dim))).getLsbD b
      else v.getLsbD j := by
  have e1 : (b + 1) * dim = b * dim + dim := by ring
  intro n
  induction n with
  | zero =>
    intro _ j
    rw [if_neg (by omega)]
    rfl
  | succ n ih =>
    intro hn j
    rw [List.range_succ, List.foldl_append, List.foldl_cons, List.foldl_nil,
      setIdxBit_getLsbD _ _ (by unfold packPos; omega), ih (by omega) j]
    unfold packPos
    by_cases e : j = b * dim + (dim - 1 - n)
    · rw [if_pos e, if_pos (by omega), show dim - 1 - (j - b * dim) = n by omega]
    · rw [if_neg e]
      by_cases h : b * dim + (dim - n) ≤ j ∧ j < (b + 1) * dim
      · rw [if_pos h, if_pos (by omega)]
      · rw [if_neg h, if_neg (by omega)]

/-- Bit `j` of the index after the groups below `n` (rules R131, R133). -/
theorem packIndex_foldl {dim : Nat} (x : List Word) : ∀ n, n * dim ≤ 64 → ∀ j,
    ((List.range n).foldl (packGroup dim x) 0).getLsbD j =
      if j < n * dim then (laneAt x (dim - 1 - j % dim)).getLsbD (j / dim) else false := by
  intro n
  induction n with
  | zero => intro _ j; simp
  | succ n ih =>
    intro hn j
    have e1 : (n + 1) * dim = n * dim + dim := by ring
    rw [List.range_succ, List.foldl_append, List.foldl_cons, List.foldl_nil]
    unfold packGroup
    rw [packGroup_foldl x _ (by omega) dim (le_refl dim) j]
    by_cases h : n * dim ≤ j ∧ j < (n + 1) * dim
    · have hdiv : j / dim = n := Nat.div_eq_of_lt_le (by omega) (by omega)
      have hmod : j % dim = j - n * dim := by
        have := Nat.div_add_mod j dim
        rw [hdiv, Nat.mul_comm] at this
        omega
      rw [if_pos (by omega), if_pos h.2, hdiv, hmod]
    · rw [if_neg (by omega)]
      have := ih (by omega) j
      unfold packGroup at this
      rw [this]
      by_cases h' : j < n * dim
      · rw [if_pos h', if_pos (by omega)]
      · rw [if_neg h', if_neg (by omega)]

/-- Every bit of the index (rules R131, R133). -/
theorem packIndex_getLsbD {ord dim : Nat} (x : List Word) (h : ord * dim ≤ 64) (j : Nat) :
    (packIndex ord dim x).getLsbD j =
      if j < ord * dim then (laneAt x (dim - 1 - j % dim)).getLsbD (j / dim) else false :=
  packIndex_foldl x ord h j

theorem packIndex_lt {ord dim : Nat} (x : List Word) (h : ord * dim ≤ 64) :
    (packIndex ord dim x).toNat < 2 ^ (ord * dim) := by
  rw [toNat_lt_iff_bits]
  intro j hj
  rw [packIndex_getLsbD x h, if_neg (by omega)]

/-! ## The whole transform depends on the point and the sampled configuration only (rules R145, R146) -/

/-- FCOR's term as a function of ORDER, DIM and the point. -/
theorem fcor_t_congr {w v : Work} (hw : InDomain w) (hv : InDomain v) (ho : w.ord = v.ord)
    (hd : w.dim = v.dim) (hx : w.x = v.x) : (fcor w).t = (fcor v).t := by
  apply BitVec.eq_of_getLsbD_eq
  intro j _
  rw [(fcor_spec hw).1, (fcor_spec hv).1, ho, hd, hx]

theorem fcor_x_congr {w v : Work} (hw : InDomain w) (hv : InDomain v) (ho : w.ord = v.ord)
    (hd : w.dim = v.dim) (hx : w.x = v.x) : (fcor w).x = (fcor v).x := by
  rw [(fcor_spec hw).2.1, (fcor_spec hv).2.1, fcor_t_congr hw hv ho hd hx, hd, hx]

theorem pack_idx (w : Work) : (pack w).idx = packIndex w.ord.toNat w.dim.toNat w.x := rfl

theorem pack_fcor_congr {w v : Work} (hw : InDomain w) (hv : InDomain v) (ho : w.ord = v.ord)
    (hd : w.dim = v.dim) (hx : w.x = v.x) : (pack (fcor w)).idx = (pack (fcor v)).idx := by
  obtain ⟨-, -, -, -, -, h1, h2, -⟩ := fcor_spec hw
  obtain ⟨-, -, -, -, -, g1, g2, -⟩ := fcor_spec hv
  rw [pack_idx, pack_idx, h1, h2, g1, g2, ho, hd, fcor_x_congr hw hv ho hd hx]

theorem gray_inDomain {w : Work} (h : InDomain w) : InDomain (gray w) := by
  refine ⟨?_, gray_validPoint h⟩
  have hl : (gray w).x.length = w.x.length :=
    (grayLanes_spec (by have := h.1.2.1; omega) h.1.2.2.1).1
  rw [hl]
  exact h.1

theorem ewr_inDomain {w : Work} (h : InDomain w) : InDomain (ewr w) := by
  obtain ⟨-, -, -, h3, h4, -⟩ := ewr_spec h.1.1 h.1.order_le
  unfold InDomain
  rw [ewr_length h, h3, h4]
  exact ⟨h.1, ewr_validPoint h⟩

theorem fcor_inDomain {w : Work} (h : InDomain w) : InDomain (fcor w) := by
  obtain ⟨-, -, -, -, -, h3, h4, -⟩ := fcor_spec h
  unfold InDomain
  rw [fcor_length h, h3, h4]
  exact ⟨h.1, fcor_validPoint h⟩

theorem pack_fcor_gray_congr {w v : Work} (hw : InDomain w) (hv : InDomain v) (ho : w.ord = v.ord)
    (hd : w.dim = v.dim) (hx : w.x = v.x) :
    (pack (fcor (gray w))).idx = (pack (fcor (gray v))).idx :=
  pack_fcor_congr (gray_inDomain hw) (gray_inDomain hv) ho hd (by simp [gray, hd, hx])

theorem transform_congr {w v : Work} (hw : InDomain w) (hv : InDomain v) (ho : w.ord = v.ord)
    (hd : w.dim = v.dim) (hx : w.x = v.x) :
    (pack (fcor (gray (ewr w)))).idx = (pack (fcor (gray (ewr v)))).idx := by
  obtain ⟨h0, -, -, h3, h4, -⟩ := ewr_spec hw.1.1 hw.1.order_le
  obtain ⟨g0, -, -, g3, g4, -⟩ := ewr_spec hv.1.1 hv.1.order_le
  exact pack_fcor_gray_congr (ewr_inDomain hw) (ewr_inDomain hv) (by rw [h3, g3, ho])
    (by rw [h4, g4, hd]) (by rw [h0, g0, ho, hd, hx])

/-- The index of a working copy is that of its point, whatever its scalars hold (rule R145). -/
theorem transform_eq_hilbertIndex {w : Work} (h : InDomain w) :
    (pack (fcor (gray (ewr w)))).idx = hilbertIndex w.ord w.dim w.x :=
  transform_congr h (v := pointWork w.ord w.dim w.x) h rfl rfl rfl

end Sys2Proof.Machine
end

