-- ==== Sys2Proof/Laws/Curve.lean ====
section
/-! SUPPORT. The transform as a curve (rules R147 to R149), said of bits: a point is one vector of lane bits for each
bit position, EWR turns the vectors below a position by the vector at it, and one digit of the index is the running
XOR of one vector, complemented or not.  Then where two successive indices lie, and the bits of `hilbertIndex` in
these terms. -/

namespace Sys2Proof.Machine.Curve

/-- One bit of every lane. -/
abbrev LaneBits := Nat → Bool

/-! ## EWR on lane bits (rules R101, R105 (e)) -/

/-- A visit of lane `i`, in the round whose bits are `d`, as one lower bit position sees it. -/
def visit (d : LaneBits) (i : Nat) (v : LaneBits) : LaneBits :=
  if d i then Function.update v 0 (!v 0)
  else fun j => if j = 0 then v i else if j = i then v 0 else v j

/-- The visits of lanes 0 to `m-1`. -/
def turn (d : LaneBits) : Nat → LaneBits → LaneBits
  | 0, v => v
  | m + 1, v => visit d m (turn d m v)

/-- The rounds of bits `n` down to 1. -/
def rounds (D : Nat) : Nat → (Nat → LaneBits) → Nat → LaneBits
  | 0, x => x
  | n + 1, x => rounds D n fun b => if b ≤ n then turn (x (n + 1)) D (x b) else x b

theorem rounds_high (D : Nat) : ∀ (n : Nat) (x : Nat → LaneBits) (k : Nat), n ≤ k → rounds D n x k = x k
  | 0, _, _, _ => rfl
  | n + 1, x, k, h => by rw [rounds, rounds_high D n _ k (by omega), if_neg (by omega)]

theorem visit_visit (d : LaneBits) (i : Nat) (v : LaneBits) : visit d i (visit d i v) = v := by
  funext j
  unfold visit
  by_cases h : d i = true
  · simp [h]
  · by_cases h0 : j = 0
    · subst h0
      by_cases h1 : i = 0
      · subst h1
        simp [h]
      · simp [h, h1]
    · by_cases h1 : j = i
      · subst h1
        simp [h, h0]
      · simp [h, h0, h1]

theorem turn_inj (d : LaneBits) : ∀ (m : Nat) {u v : LaneBits}, turn d m u = turn d m v → u = v
  | 0, _, _, h => h
  | m + 1, u, v, h => turn_inj d m (by simpa only [turn, visit_visit] using congrArg (visit d m) h)

theorem turn_surj (d : LaneBits) : ∀ (m : Nat) (v : LaneBits), ∃ u, turn d m u = v
  | 0, v => ⟨v, rfl⟩
  | m + 1, v => by
    obtain ⟨u, h⟩ := turn_surj d m (visit d m v)
    exact ⟨u, by rw [turn, h, visit_visit]⟩

/-- The visits of lanes below `m` depend on the bits of these lanes only. -/
theorem turn_congr {d d' : LaneBits} : ∀ (m : Nat), (∀ i < m, d i = d' i) → ∀ v, turn d m v = turn d' m v
  | 0, _, _ => rfl
  | m + 1, h, v => by
    rw [turn, turn, turn_congr m (fun i hi => h i (by omega)) v]
    simp only [visit, h m (by omega)]

/-- The visits of lanes below `m` carry a later lane along unchanged. -/
theorem turn_update (d : LaneBits) {p : Nat} (c : Bool) : ∀ (m : Nat), m ≤ p → ∀ w,
    turn d m (Function.update w p c) = Function.update (turn d m w) p c
  | 0, _, _ => rfl
  | m + 1, h, w => by
    rw [turn, turn, turn_update d c m (by omega) w]
    have h0 : p ≠ 0 := by omega
    have h1 : p ≠ m := by omega
    funext j
    by_cases hd : d m = true
    · simp only [visit, hd, if_true, Function.update_apply]
      by_cases hj : j = 0
      · subst hj
        simp [h0.symm]
      · simp [hj]
    · simp only [visit, hd, Function.update_apply]
      by_cases hj : j = p
      · subst hj
        simp [h0, h1]
      · by_cases hj0 : j = 0
        · subst hj0
          simp [h1.symm, h0.symm]
        · simp [hj, hj0, h0.symm]

/-- Lanes from DIM on are left alone (rule R105 (d)). -/
theorem turn_spare (d : LaneBits) {D : Nat} (h0 : 0 < D) : ∀ (m : Nat), m ≤ D → ∀ (w : LaneBits) (j : Nat),
    D ≤ j → turn d m w j = w j
  | 0, _, _, _, _ => rfl
  | m + 1, h, w, j, hj => by
    rw [turn, ← turn_spare d h0 m (by omega) w j hj]
    unfold visit
    have : j ≠ 0 := by omega
    have : j ≠ m := by omega
    split <;> simp [*]

/-- No lane from DIM on holds a bit. -/
abbrev Narrow (D : Nat) (x : Nat → LaneBits) : Prop := ∀ k i, D ≤ i → x k i = false

theorem Narrow.step {D n : Nat} {x : Nat → LaneBits} (hD : 1 ≤ D) (h : Narrow D x) (d : LaneBits) :
    Narrow D fun b => if b ≤ n then turn d D (x b) else x b := by
  intro k i hi
  by_cases hk : k ≤ n
  · simp only [if_pos hk]
    rw [turn_spare _ hD D (le_refl D) _ _ hi, h k i hi]
  · simp only [if_neg hk]
    exact h k i hi

/-! ## The bits of the index (rules R111, R123, R131) -/

/-- The running XOR of GRAY. -/
def runXor (v : LaneBits) : Nat → Bool
  | 0 => v 0
  | i + 1 => xor (runXor v i) (v (i + 1))

/-- The correction bit of FCOR at position `k` from the `m` positions above it. -/
def foldXor (D : Nat) (e : Nat → LaneBits) (k : Nat) : Nat → Bool
  | 0 => false
  | m + 1 => xor (foldXor D e k m) (runXor (e (k + 1 + m)) (D - 1))

/-- The bit of the index for position `k` of lane `i`, top position `n`, in a quadrant entered with parity `π`. -/
def digit (D n : Nat) (π : Bool) (e : Nat → LaneBits) (k i : Nat) : Bool :=
  xor (xor (runXor (e k) i) π) (foldXor D e k (n - k))

theorem digit_succ {D n : Nat} {π : Bool} {e : Nat → LaneBits} {k : Nat} (h : k ≤ n) (i : Nat) :
    digit D (n + 1) π e k i = digit D n (xor π (runXor (e (n + 1)) (D - 1))) e k i := by
  simp only [digit, Nat.succ_sub h, foldXor]
  rw [show k + 1 + (n - k) = n + 1 by omega]
  generalize runXor (e k) i = a
  generalize foldXor D e k (n - k) = b
  generalize runXor (e (n + 1)) (D - 1) = c
  cases a <;> cases b <;> cases c <;> cases π <;> rfl

theorem digit_top {D n : Nat} {π : Bool} {e : Nat → LaneBits} (i : Nat) :
    digit D n π e n i = xor (runXor (e n) i) π := by
  simp [digit, foldXor]

/-- The bits of the index of a point. -/
def pointDigit (D n : Nat) (π : Bool) (x : Nat → LaneBits) (k i : Nat) : Bool :=
  digit D n π (rounds D n x) k i

theorem pointDigit_top {D n : Nat} {π : Bool} {x : Nat → LaneBits} (i : Nat) :
    pointDigit D n π x n i = xor (runXor (x n) i) π := by
  rw [pointDigit, digit_top, rounds_high D n x n (le_refl n)]

/-- Below the top position the bits are those of the turned point, entered with the parity of the top vector. -/
theorem pointDigit_below {D n : Nat} {π : Bool} {x : Nat → LaneBits} {k : Nat} (h : k ≤ n) (i : Nat) :
    pointDigit D (n + 1) π x k i =
      pointDigit D n (xor π (runXor (x (n + 1)) (D - 1)))
        (fun b => if b ≤ n then turn (x (n + 1)) D (x b) else x b) k i := by
  rw [pointDigit, digit_succ h, rounds_high D _ x _ (le_refl _)]
  rfl

theorem runXor_inj {u v : LaneBits} {s : Bool} {n : Nat} (h : ∀ i < n, xor (runXor u i) s = xor (runXor v i) s) :
    ∀ i < n, u i = v i := by
  intro i hi
  have h1 := h i hi
  cases i with
  | zero => simpa [runXor] using h1
  | succ i =>
    have h2 : runXor u i = runXor v i := by simpa using h i (by omega)
    simpa [runXor, h2] using h1

/-! ## The two ends of the curve -/

/-- One bit `c` in lane `p`, every other lane 0. -/
def single (p : Nat) (c : Bool) : LaneBits := fun i => decide (i = p) && c

theorem runXor_single (c : Bool) (i : Nat) : runXor (single 0 c) i = c := by
  induction i with
  | zero => simp [runXor, single]
  | succ i ih => simp [runXor, ih, single]

theorem visit_single (d : LaneBits) (p : Nat) : visit d p (single 0 true) = single p (!d p) := by
  funext j
  unfold visit single
  by_cases h : d p = true
  · by_cases hj : j = 0 <;> simp [h, hj]
  · by_cases hj : j = 0
    · subst hj
      simp [h, eq_comm]
    · by_cases hp : j = p <;> simp_all

theorem visit_zero {d : LaneBits} {p : Nat} (h : d p = false) :
    visit d p (single 0 false) = single 0 false := by
  funext j
  simp [visit, h, single]

/-- From all 0 on, exchanges change nothing. -/
theorem turn_zero {d : LaneBits} {a : Nat} {u : LaneBits} (ha : turn d a u = single 0 false) (m : Nat)
    (hm : a ≤ m) : (∀ i, a ≤ i → i < m → d i = false) → turn d m u = single 0 false := by
  induction m, hm using Nat.le_induction with
  | base => exact fun _ => ha
  | succ m hm ih =>
    intro h
    rw [turn, ih fun i h1 h2 => h i h1 (by omega), visit_zero (h m hm (by omega))]

/-- A vector whose running XOR is one bit everywhere has that bit in lane 0 only. -/
theorem eq_single {D : Nat} (hD : 1 ≤ D) {v : LaneBits} {π s : Bool} (hz : ∀ i, D ≤ i → v i = false)
    (h : ∀ i < D, xor (runXor v i) π = s) : v = single 0 (xor s π) := by
  have hp : ∀ i < D, runXor v i = xor s π := fun i hi => by rw [← h i hi]; simp
  funext i
  by_cases hi : i < D
  · cases i with
    | zero => simpa [runXor, single] using hp 0 hi
    | succ i =>
      have h1 := hp (i + 1) hi
      rw [runXor, hp i (by omega)] at h1
      revert h1
      simp only [single]
      generalize v (i + 1) = c
      cases s <;> cases π <;> cases c <;> simp
  · rw [hz i (by omega)]
    simp [single]
    omega

/-- A point whose index bits are all `s`: every vector has one bit, in lane 0.  Index 0 is the origin; the last index
is the far corner of lane 0. -/
theorem point_of_constant_digits {D : Nat} (hD : 1 ≤ D) : ∀ (n : Nat) (π s : Bool) (x : Nat → LaneBits), Narrow D x →
    (∀ k ≤ n, ∀ i < D, pointDigit D n π x k i = s) → ∀ k ≤ n, x k = single 0 (xor s π) := by
  intro n
  induction n with
  | zero =>
    intro π s x hz h k hk
    obtain rfl : k = 0 := by omega
    exact eq_single hD (hz 0) fun i hi => by rw [← pointDigit_top, h 0 (le_refl 0) i hi]
  | succ n ih =>
    intro π s x hz h k hk
    have htop : x (n + 1) = single 0 (xor s π) :=
      eq_single hD (hz _) fun i hi => by rw [← pointDigit_top, h (n + 1) (le_refl _) i hi]
    by_cases hk' : k = n + 1
    · rw [hk', htop]
    have hlow := ih (xor π (xor s π)) s _ (hz.step (n := n) hD (x (n + 1))) (fun k hk i hi => by
      have := h k (by omega) i hi
      rw [pointDigit_below hk, show runXor (x (n + 1)) (D - 1) = xor s π by rw [htop, runXor_single]] at this
      exact this) k (by omega)
    simp only [if_pos (show k ≤ n by omega)] at hlow
    refine turn_inj (x (n + 1)) D (hlow.trans ?_)
    rw [show xor s (xor π (xor s π)) = false by cases s <;> cases π <;> rfl, htop]
    symm
    generalize xor s π = v
    refine turn_zero (a := 1) ?_ D hD fun i h1 _ => by simp [single]; omega
    show visit _ 0 (single 0 v) = _
    cases v
    · rw [visit_zero (by simp [single])]
    · rw [visit_single]
      funext j
      simp [single]

/-! ## Where two quadrants meet -/

/-- `d` and `d'` differ in lane `p` only, and the point leaves the one quadrant and enters the other at the end `v` of
the turned curve: then the two lower vectors differ in lane `p` only too, as neighbouring cells do. -/
theorem junction {d d' u u' : LaneBits} {D p : Nat} {v : Bool} (hp : p < D)
    (hd : ∀ i < D, i ≠ p → d i = d' i) (hdp : d' p = !d p)
    (hu : turn d D u = single 0 v) (hu' : turn d' D u' = single 0 v)
    (hc : (p + 1 = D ∧ v = true) ∨
      (p + 1 < D ∧ v = false ∧ d (p + 1) = true ∧ ∀ i, p + 1 < i → i < D → d i = false)) :
    u p = !d p ∧ u' = Function.update u p (d p) := by
  have key : ∀ d u : LaneBits, turn d D u = single 0 v → ((p + 1 = D ∧ v = true) ∨
      (p + 1 < D ∧ v = false ∧ d (p + 1) = true ∧ ∀ i, p + 1 < i → i < D → d i = false)) →
      turn d (p + 1) u = single 0 true := by
    rintro d u hu (⟨h1, h2⟩ | ⟨h1, h2, h3, h4⟩)
    · rw [h1, hu, h2]
    · obtain ⟨u0, h0⟩ := turn_surj d (p + 1) (single 0 true)
      have e1 : turn d (p + 2) u0 = single 0 false := by
        rw [turn, h0, visit_single, h3]
        funext j
        simp [single]
      have e2 := turn_zero e1 D (by omega) fun i h5 h6 => h4 i (by omega) h6
      rw [turn_inj d D (hu.trans (by rw [e2, h2])), h0]
  have k1 := key d u hu hc
  have k2 := key d' u' hu' <| hc.imp_right fun ⟨h1, h2, h3, h4⟩ =>
    ⟨h1, h2, by rw [← hd (p + 1) h1 (by omega), h3],
      fun i h5 h6 => by rw [← hd i h6 (by omega), h4 i h5 h6]⟩
  have j1 : turn d p u = single p (!d p) := by rw [← visit_single, ← k1, turn, visit_visit]
  have j2 : turn d p u' = single p (d p) := by
    rw [turn_congr p (fun i hi => hd i (by omega) (by omega)), show d p = !d' p by simp [hdp],
      ← visit_single, ← k2, turn, visit_visit]
  constructor
  · have := congrFun (turn_update d (u p) p (le_refl p) u) p
    rw [Function.update_eq_self, Function.update_self] at this
    rw [← this, j1]
    simp [single]
  · refine turn_inj d p ?_
    rw [j2, turn_update d _ p (le_refl p), j1]
    funext j
    by_cases h : j = p <;> simp [single, h]

/-! ## Neighbouring points in bits -/

/-- `x` and `y` are equal in every lane but `q`; there they differ by 1, the carry running up to bit `b`. -/
structure Adjacent (n b q : Nat) (x y : Nat → LaneBits) : Prop where
  other : ∀ k ≤ n, ∀ i, i ≠ q → x k i = y k i
  high : ∀ k, b < k → k ≤ n → x k q = y k q
  change : y b q = !x b q
  low : ∀ k < b, x k q = !x b q ∧ y k q = x b q

theorem Adjacent.congr {n b q : Nat} {x y x' y' : Nat → LaneBits} (h : Adjacent n b q x y) (hb : b ≤ n)
    (hx : ∀ k ≤ n, x k = x' k) (hy : ∀ k ≤ n, y k = y' k) : Adjacent n b q x' y' where
  other := fun k hk i hi => by rw [← hx k hk, ← hy k hk]; exact h.other k hk i hi
  high := fun k h1 h2 => by rw [← hx k h2, ← hy k h2]; exact h.high k h1 h2
  change := by rw [← hx b hb, ← hy b hb]; exact h.change
  low := fun k hk => by rw [← hx k (by omega), ← hy k (by omega), ← hx b hb]; exact h.low k hk

/-- A visit keeps points adjacent: it complements one lane of both, or exchanges two lanes of both. -/
theorem Adjacent.visit {n b q D : Nat} {x y : Nat → LaneBits} (h : Adjacent n b q x y) (hq : q < D) (d : LaneBits)
    {i : Nat} (hi : i < D) :
    ∃ q' < D, Adjacent n b q' (fun k => visit d i (x k)) (fun k => visit d i (y k)) := by
  unfold Curve.visit
  have hc := h.change
  by_cases hd : d i = true
  · refine ⟨q, hq, fun k hk j hj => ?_, fun k h1 h2 => ?_, ?_, fun k hk => ?_⟩
    · have := h.other k hk j hj
      by_cases h0 : j = 0
      · subst h0
        simp [hd, this]
      · simp [hd, h0, this]
    · have := h.high k h1 h2
      by_cases h0 : q = 0
      · subst h0
        simp [hd, this]
      · simp [hd, h0, this]
    · by_cases h0 : q = 0
      · subst h0
        simp [hd, hc]
      · simp [hd, h0, hc]
    · have := h.low k hk
      by_cases h0 : q = 0
      · subst h0
        simp [hd, this]
      · simp [hd, h0, this]
  · simp only [hd]
    by_cases hq0 : q = 0
    · subst hq0
      refine ⟨i, hi, fun k hk j hj => ?_, fun k h1 h2 => ?_, ?_, fun k hk => ?_⟩
      · by_cases h0 : j = 0
        · subst h0
          simp [h.other k hk i (by omega)]
        · simp [h0, hj, h.other k hk j (by omega)]
      · have := h.high k h1 h2
        by_cases hi0 : i = 0 <;> simp [hi0, this]
      · by_cases hi0 : i = 0 <;> simp [hi0, hc]
      · have := h.low k hk
        by_cases hi0 : i = 0 <;> simp [hi0, this]
    · by_cases hqi : q = i
      · subst hqi
        refine ⟨0, by omega, fun k hk j hj => ?_, fun k h1 h2 => ?_, ?_, fun k hk => ?_⟩
        · by_cases h1 : j = q
          · subst h1
            simp [hj, h.other k hk 0 (by omega)]
          · simp [hj, h1, h.other k hk j (by omega)]
        · simp [h.high k h1 h2]
        · simp [hc]
        · simp [h.low k hk]
      · refine ⟨q, hq, fun k hk j hj => ?_, fun k h1 h2 => ?_, ?_, fun k hk => ?_⟩
        · simp [h.other k hk i (by omega), h.other k hk 0 (by omega), h.other k hk j hj]
        · simp [hq0, hqi, h.high k h1 h2]
        · simp [hq0, hqi, hc]
        · simp [hq0, hqi, h.low k hk]

/-- Points that are adjacent after a turn were so before. -/
theorem Adjacent.of_turn {n b D : Nat} (d : LaneBits) : ∀ (m : Nat), m ≤ D →
    ∀ {x y : Nat → LaneBits} {q : Nat}, q < D →
    Adjacent n b q (fun k => turn d m (x k)) (fun k => turn d m (y k)) → ∃ q' < D, Adjacent n b q' x y
  | 0, _, _, _, q, hq, h => ⟨q, hq, h⟩
  | m + 1, hm, x, y, q, hq, h => by
    obtain ⟨q', h1, h2⟩ := h.visit hq d (i := m) (by omega)
    simp only [turn, visit_visit] at h2
    exact Adjacent.of_turn d m (by omega) h1 h2

/-! ## Successive indices -/

/-- The index bits `c'` are those of `c` plus 1: the carry ends at lane `p` of digit `b` (lane 0 of a digit is its
highest bit). -/
structure Follows (D n b p : Nat) (c c' : Nat → Nat → Bool) : Prop where
  high : ∀ k, b < k → k ≤ n → ∀ i < D, c k i = c' k i
  before : ∀ i < p, c b i = c' b i
  zero : c b p = false
  one : c' b p = true
  after : ∀ i, p < i → i < D → c b i = true ∧ c' b i = false
  low : ∀ k < b, ∀ i < D, c k i = true ∧ c' k i = false

/-- When the carry reaches the top digit, the top vectors differ in lane `p` only. -/
theorem top_vectors {D n p : Nat} {π : Bool} {x y : Nat → LaneBits} (hx : Narrow D x) (hy : Narrow D y)
    (F : Follows D n n p (pointDigit D n π x) (pointDigit D n π y)) :
    (∀ i, i ≠ p → x n i = y n i) ∧ y n p = !x n p := by
  obtain ⟨-, hlt, h0, h1, hgt, -⟩ := F
  simp only [pointDigit_top] at hlt h0 h1 hgt
  constructor
  · intro i hip
    by_cases hi : i < D
    · by_cases h : i < p
      · exact runXor_inj (s := π) (n := p) hlt i h
      · obtain ⟨i, rfl⟩ : ∃ j, i = j + 1 := ⟨i - 1, by omega⟩
        have g1 := hgt (i + 1) (by omega) hi
        simp only [runXor] at g1
        by_cases hip2 : i = p
        · subst hip2
          revert g1 h0 h1
          generalize runXor (x n) i = a
          generalize runXor (y n) i = b
          generalize x n (i + 1) = c
          generalize y n (i + 1) = e
          cases a <;> cases b <;> cases c <;> cases e <;> cases π <;> simp
        · have g2 := hgt i (by omega) (by omega)
          revert g1 g2
          generalize runXor (x n) i = a
          generalize runXor (y n) i = b
          generalize x n (i + 1) = c
          generalize y n (i + 1) = e
          cases a <;> cases b <;> cases c <;> cases e <;> cases π <;> simp
    · rw [hx n i (by omega), hy n i (by omega)]
  · cases p with
    | zero =>
      revert h0 h1
      simp only [runXor]
      generalize x n 0 = a
      generalize y n 0 = b
      cases a <;> cases b <;> cases π <;> simp
    | succ p =>
      have g1 := hlt p (by omega)
      revert h0 h1 g1
      simp only [runXor]
      generalize runXor (x n) p = a
      generalize runXor (y n) p = b
      generalize x n (p + 1) = c
      generalize y n (p + 1) = e
      cases a <;> cases b <;> cases c <;> cases e <;> cases π <;> simp

/-- When the carry reaches the top digit, both lower parts are at the same end of their turned curves. -/
theorem quadrant_ends {D n p : Nat} {π : Bool} {x y : Nat → LaneBits} (hp : p < D)
    (F : Follows D (n + 1) (n + 1) p (pointDigit D (n + 1) π x) (pointDigit D (n + 1) π y)) :
    ∃ v, xor true (xor π (runXor (x (n + 1)) (D - 1))) = v ∧
      xor false (xor π (runXor (y (n + 1)) (D - 1))) = v ∧
      ((p + 1 = D ∧ v = true) ∨ (p + 1 < D ∧ v = false ∧ x (n + 1) (p + 1) = true ∧
        ∀ i, p + 1 < i → i < D → x (n + 1) i = false)) := by
  obtain ⟨-, -, h0, h1, hgt, -⟩ := F
  simp only [pointDigit_top] at h0 h1 hgt
  by_cases hpD : p + 1 = D
  · refine ⟨true, ?_, ?_, .inl ⟨hpD, rfl⟩⟩
    · rw [← hpD, Nat.add_sub_cancel]
      revert h0
      generalize runXor (x (n + 1)) p = a
      cases a <;> cases π <;> simp
    · rw [← hpD, Nat.add_sub_cancel]
      revert h1
      generalize runXor (y (n + 1)) p = a
      cases a <;> cases π <;> simp
  · obtain ⟨g1, g2⟩ := hgt (D - 1) (by omega) (by omega)
    refine ⟨false, ?_, ?_, .inr ⟨by omega, rfl, ?_, fun i hi hiD => ?_⟩⟩
    · revert g1
      generalize runXor (x (n + 1)) (D - 1) = a
      cases a <;> cases π <;> simp
    · revert g2
      generalize runXor (y (n + 1)) (D - 1) = a
      cases a <;> cases π <;> simp
    · have := (hgt (p + 1) (by omega) (by omega)).1
      revert this h0
      simp only [runXor]
      generalize runXor (x (n + 1)) p = a
      generalize x (n + 1) (p + 1) = b
      cases a <;> cases b <;> cases π <;> simp
    · obtain ⟨i, rfl⟩ : ∃ j, i = j + 1 := ⟨i - 1, by omega⟩
      have k1 := (hgt (i + 1) (by omega) hiD).1
      have k2 := (hgt i (by omega) (by omega)).1
      revert k1 k2
      simp only [runXor]
      generalize runXor (x (n + 1)) i = a
      generalize x (n + 1) (i + 1) = b
      cases a <;> cases b <;> cases π <;> simp

/-- The carry reaches the top digit: two quadrants meet. -/
theorem adjacent_across {D : Nat} (hD : 1 ≤ D) {n p : Nat} {π : Bool} {x y : Nat → LaneBits} (hx : Narrow D x)
    (hy : Narrow D y) (hp : p < D) (F : Follows D n n p (pointDigit D n π x) (pointDigit D n π y)) :
    Adjacent n n p x y := by
  obtain ⟨hne, hdp⟩ := top_vectors hx hy F
  cases n with
  | zero =>
    refine ⟨fun k hk i hi => ?_, fun k h1 h2 => by omega, hdp, fun k hk => by omega⟩
    obtain rfl : k = 0 := by omega
    exact hne i hi
  | succ n =>
    obtain ⟨v, v1, v2, hc⟩ := quadrant_ends hp F
    have ex := point_of_constant_digits hD n (xor π (runXor (x (n + 1)) (D - 1))) true _
      (hx.step (n := n) hD (x (n + 1))) fun k hk i hi => by
        rw [← pointDigit_below hk]
        exact (F.low k (by omega) i hi).1
    have ey := point_of_constant_digits hD n (xor π (runXor (y (n + 1)) (D - 1))) false _
      (hy.step (n := n) hD (y (n + 1))) fun k hk i hi => by
        rw [← pointDigit_below hk]
        exact (F.low k (by omega) i hi).2
    have J : ∀ k ≤ n, x k p = !x (n + 1) p ∧ y k = Function.update (x k) p (x (n + 1) p) := by
      intro k hk
      have e1 := ex k hk
      have e2 := ey k hk
      simp only [if_pos hk, v1, v2] at e1 e2
      exact junction hp (fun i _ hi => hne i hi) hdp e1 e2 hc
    refine ⟨fun k hk i hi => ?_, fun k h1 h2 => by omega, hdp, fun k hk => ?_⟩
    · by_cases h : k = n + 1
      · subst h
        exact hne i hi
      · rw [(J k (by omega)).2, Function.update_of_ne hi]
    · exact ⟨(J k (by omega)).1, by rw [(J k (by omega)).2, Function.update_self]⟩

/-- The curve is continuous: points whose index bits follow each other are adjacent. -/
theorem adjacent_of_follows {D : Nat} (hD : 1 ≤ D) : ∀ (n : Nat) (π : Bool) (x y : Nat → LaneBits), Narrow D x →
    Narrow D y → ∀ b p, b ≤ n → p < D → Follows D n b p (pointDigit D n π x) (pointDigit D n π y) →
    ∃ q < D, Adjacent n b q x y := by
  intro n
  induction n with
  | zero =>
    intro π x y hx hy b p hb hp F
    obtain rfl : b = 0 := by omega
    exact ⟨p, hp, adjacent_across hD hx hy hp F⟩
  | succ n ih =>
    intro π x y hx hy b p hb hp F
    by_cases hbn : b = n + 1
    · subst hbn
      exact ⟨p, hp, adjacent_across hD hx hy hp F⟩
    have hb' : b ≤ n := by omega
    have hd : x (n + 1) = y (n + 1) := by
      funext i
      by_cases hi : i < D
      · have := F.high (n + 1) (by omega) (le_refl _)
        simp only [pointDigit_top] at this
        exact runXor_inj this i hi
      · rw [hx _ i (by omega), hy _ i (by omega)]
    have cx := fun (k : Nat) (hk : k ≤ n) => pointDigit_below (D := D) (π := π) (x := x) hk
    have cy := fun (k : Nat) (hk : k ≤ n) => pointDigit_below (D := D) (π := π) (x := y) hk
    rw [← hd] at cy
    obtain ⟨q, hq, h⟩ := ih _ _ _ (hx.step (n := n) hD (x (n + 1))) (hy.step (n := n) hD (x (n + 1))) b p hb' hp
      ⟨fun k h1 h2 i hi => by rw [← cx k h2, ← cy k h2]; exact F.high k h1 (by omega) i hi,
        fun i hi => by rw [← cx b hb', ← cy b hb']; exact F.before i hi,
        by rw [← cx b hb']; exact F.zero, by rw [← cy b hb']; exact F.one,
        fun i h1 h2 => by rw [← cx b hb', ← cy b hb']; exact F.after i h1 h2,
        fun k hk i hi => by rw [← cx k (by omega), ← cy k (by omega)]; exact F.low k hk i hi⟩
    obtain ⟨q', hq', g⟩ := Adjacent.of_turn (x (n + 1)) D (le_refl D) hq
      (h.congr hb' (x' := fun k => turn (x (n + 1)) D (x k)) (y' := fun k => turn (x (n + 1)) D (y k))
        (fun k hk => by simp [hk]) (fun k hk => by simp [hk]))
    refine ⟨q', hq', fun k hk i hi => ?_, fun k h1 h2 => ?_, g.change, g.low⟩
    · by_cases h : k = n + 1
      · rw [h, hd]
      · exact g.other k (by omega) i hi
    · by_cases h : k = n + 1
      · rw [h, hd]
      · exact g.high k h1 (by omega)

/-! ## The lanes of a point as lane bits -/

/-- Bit `k` of the lanes `i < DIM`. -/
def bitsOf (dim : Nat) (x : List Word) (k : Nat) : LaneBits :=
  fun i => decide (i < dim) && (laneAt x i).getLsbD k

theorem bitsOf_narrow (dim : Nat) (x : List Word) : Narrow dim (bitsOf dim x) := by
  intro k i hi
  simp [bitsOf, not_lt.2 hi]

theorem bitsOf_of_lt {dim : Nat} (x : List Word) (k : Nat) {i : Nat} (hi : i < dim) :
    bitsOf dim x k i = (laneAt x i).getLsbD k := by
  simp [bitsOf, hi]

theorem bitsOf_visit {dim k i : Nat} {x : List Word} (hi : i < dim) (hl : dim ≤ x.length) (hk : k < 32)
    (b : Nat) : bitsOf dim (visitByBit k x i) b =
      if b < k then visit (bitsOf dim x k) i (bitsOf dim x b) else bitsOf dim x b := by
  funext j
  by_cases hb : b < k
  · rw [if_pos hb]
    unfold visitByBit Curve.visit
    rw [bitsOf_of_lt x k hi]
    have h0 : 0 < x.length := by omega
    have hdim : 0 < dim := by omega
    by_cases h : (laneAt x i).getLsbD k = true
    · rw [if_pos h, if_pos h]
      by_cases hj : j = 0
      · subst hj
        rw [Function.update_self]
        simp only [bitsOf, laneAt_setLane_self _ h0, BitVec.getLsbD_xor, lowMask_getLsbD, hb,
          show b < 32 by omega, hdim]
        simp
      · rw [Function.update_of_ne hj]
        simp only [bitsOf, laneAt_setLane_of_ne _ (Ne.symm hj)]
    · rw [if_neg h, if_neg h]
      by_cases hji : j = i
      · subst hji
        simp only [bitsOf]
        rw [laneAt_setLane_self _ (by simpa using (by omega : j < x.length)), splice_getLsbD, if_pos hb]
        by_cases hj0 : j = 0 <;> simp [hi, hj0, hdim]
      · by_cases hj : j = 0
        · subst hj
          simp only [bitsOf]
          rw [laneAt_setLane_of_ne _ (Ne.symm hji), laneAt_setLane_self _ h0, splice_getLsbD, if_pos hb]
          simp [hi, hdim]
        · simp only [bitsOf]
          rw [laneAt_setLane_of_ne _ (Ne.symm hji), laneAt_setLane_of_ne _ (Ne.symm hj)]
          simp [hj, hji]
  · rw [if_neg hb]
    simp only [bitsOf, visitByBit_bits k x i j b (by omega)]

theorem bitsOf_turn {dim k : Nat} {x : List Word} (hl : dim ≤ x.length) (hk : k < 32) : ∀ m ≤ dim, ∀ b,
    bitsOf dim (visitLanes k (List.range m) x) b =
      if b < k then turn (bitsOf dim x k) m (bitsOf dim x b) else bitsOf dim x b := by
  intro m
  induction m with
  | zero =>
    intro _ b
    simp [visitLanes, turn]
  | succ m ih =>
    intro hm b
    have e : visitLanes k (List.range (m + 1)) x = visitByBit k (visitLanes k (List.range m) x) m := by
      simp [visitLanes, List.range_succ]
    rw [e, bitsOf_visit (by omega) (by rw [visitLanes_length]; exact hl) hk, ih (by omega) b,
      ih (by omega) k]
    by_cases hb : b < k <;> simp [hb, turn]

theorem bitsOf_rounds {dim : Nat} : ∀ (n : Nat) (x : List Word), dim ≤ x.length → n < 32 →
    bitsOf dim (roundsFrom dim n x) = rounds dim n (bitsOf dim x)
  | 0, _, _, _ => rfl
  | n + 1, x, hl, hn => by
    rw [roundsFrom, bitsOf_rounds n _ (by rw [visitLanes_length]; exact hl) (by omega), rounds]
    congr 1
    funext b
    rw [bitsOf_turn hl hn dim (le_refl _) b]
    simp

theorem xorUpTo_bit {dim : Nat} (x : List Word) (b : Nat) : ∀ i < dim,
    (xorUpTo x i).getLsbD b = runXor (bitsOf dim x b) i
  | 0, h => by simp [xorUpTo, runXor, bitsOf, h]
  | i + 1, h => by
    rw [xorUpTo, BitVec.getLsbD_xor, xorUpTo_bit (dim := dim) x b i (by omega), runXor]
    simp [bitsOf, h]

theorem xorBits_last {dim : Nat} (x : List Word) (k : Nat) (hd : 0 < dim) : ∀ m,
    xorBits (xorUpTo x (dim - 1)) (k + 1) m = foldXor dim (bitsOf dim x) k m
  | 0 => rfl
  | m + 1 => by
    rw [xorBits, foldXor, xorBits_last x k hd m, xorUpTo_bit (dim := dim) x _ (dim - 1) (by omega)]

/-- The index, PACK of the three stages, with ORDER and DIM as given. -/
theorem hilbertIndex_eq {ord dim : BitVec 6} {x : List Word} (hv : ValidConfig x.length ord dim)
    (hp : ValidPoint ord dim x) : hilbertIndex ord dim x =
      packIndex ord.toNat dim.toNat (fcor (gray (ewr (pointWork ord dim x)))).x := by
  have hd : InDomain (pointWork ord dim x) := ⟨hv, hp⟩
  obtain ⟨-, -, -, g3, g4, -⟩ := ewr_spec hd.1.1 hd.1.order_le
  obtain ⟨-, -, -, -, -, f3, f4, -⟩ := fcor_spec (gray_inDomain (ewr_inDomain hd))
  unfold hilbertIndex
  rw [pack_idx, f3, f4]
  show packIndex (ewr _).ord.toNat (ewr _).dim.toNat _ = _
  rw [g3, g4]
  rfl

/-- Every bit of the index of a valid point, as a digit of the curve (rules R111, R123, R131). -/
theorem hilbertIndex_bit {ord dim : BitVec 6} {x : List Word} (hv : ValidConfig x.length ord dim)
    (hp : ValidPoint ord dim x) {b i : Nat} (hb : b < ord.toNat) (hi : i < dim.toNat) :
    (hilbertIndex ord dim x).getLsbD (b * dim.toNat + (dim.toNat - 1 - i)) =
      pointDigit dim.toNat (ord.toNat - 1) false (bitsOf dim.toNat x) b i := by
  have hd0 : InDomain (pointWork ord dim x) := ⟨hv, hp⟩
  obtain ⟨g0, -, -, g3, g4, -⟩ := ewr_spec hd0.1.1 hd0.1.order_le
  have hd2 := gray_inDomain (ewr_inDomain hd0)
  have hgd : (gray (ewr (pointWork ord dim x))).dim = dim := g4
  have hgo : (gray (ewr (pointWork ord dim x))).ord = ord := g3
  have hgx : (gray (ewr (pointWork ord dim x))).x =
      grayLanes dim.toNat (ewr (pointWork ord dim x)).x := by
    show grayLanes (ewr (pointWork ord dim x)).dim.toNat _ = _
    rw [g4]
    rfl
  have hm : b * dim.toNat + (dim.toNat - 1 - i) < ord.toNat * dim.toNat := by
    have : (b + 1) * dim.toNat ≤ ord.toNat * dim.toNat := Nat.mul_le_mul_right _ hb
    rw [Nat.add_mul] at this
    omega
  have hlt : dim.toNat - 1 - i < dim.toNat := by omega
  obtain ⟨-, hgl, -⟩ := grayLanes_spec (x := (ewr (pointWork ord dim x)).x) (dim := dim.toNat) (by omega)
    (by rw [ewr_length hd0]; exact hv.2.2.1)
  obtain ⟨f1, f2, -⟩ := fcor_spec hd2
  obtain ⟨-, h2, -⟩ := fcorLanes_spec (fcor (gray (ewr (pointWork ord dim x)))).t dim.toNat
    (gray (ewr (pointWork ord dim x))).x (by have := hd2.1.2.2.1; rw [hgd] at this; exact this)
  have hr : bitsOf dim.toNat (ewr (pointWork ord dim x)).x =
      rounds dim.toNat (ord.toNat - 1) (bitsOf dim.toNat x) := by
    rw [g0]
    exact bitsOf_rounds _ _ hv.2.2.1 (by show ord.toNat - 1 < 32; have := hv.order_le; omega)
  rw [hilbertIndex_eq hv hp,
    packIndex_getLsbD _ (by have := hv.2.2.2; rw [Nat.mul_comm]; omega), if_pos hm,
    Nat.mul_comm b, Nat.mul_add_div (by omega), Nat.div_eq_of_lt hlt, Nat.mul_add_mod,
    Nat.mod_eq_of_lt hlt, Nat.add_zero, show dim.toNat - 1 - (dim.toNat - 1 - i) = i by omega, f2, hgd,
    h2 i hi, BitVec.getLsbD_xor, f1, hgo, hgd, hgx, hgl i hi, hgl (dim.toNat - 1) (by omega),
    xorUpTo_bit _ _ _ hi, foldBit, xorBits_last _ _ (by omega), hr]
  simp [pointDigit, digit]

/-! ## Adding 1, bit by bit -/

/-- The bits of a number and of its successor: equal above the carry, changed up to it. -/
theorem succ_bits (X : Nat) : ∃ m, X.testBit m = false ∧ (X + 1).testBit m = true ∧
    (∀ k > m, X.testBit k = (X + 1).testBit k) ∧ ∀ k < m, X.testBit k = true ∧ (X + 1).testBit k = false := by
  induction X using Nat.strong_induction_on with
  | _ X ih =>
    by_cases h : X % 2 = 0
    · refine ⟨0, by simp [h], by simp; omega, fun k hk => ?_, fun k hk => absurd hk (Nat.not_lt_zero _)⟩
      obtain ⟨k, rfl⟩ : ∃ j, k = j + 1 := ⟨k - 1, by omega⟩
      rw [Nat.testBit_add_one, Nat.testBit_add_one, show (X + 1) / 2 = X / 2 by omega]
    · obtain ⟨m, h1, h2, h3, h4⟩ := ih (X / 2) (by omega)
      have e : (X + 1) / 2 = X / 2 + 1 := by omega
      refine ⟨m + 1, by rw [Nat.testBit_add_one, h1], by rw [Nat.testBit_add_one, e, h2],
        fun k hk => ?_, fun k hk => ?_⟩
      · obtain ⟨k, rfl⟩ : ∃ j, k = j + 1 := ⟨k - 1, by omega⟩
        rw [Nat.testBit_add_one, Nat.testBit_add_one, e, h3 k (by omega)]
      · cases k with
        | zero =>
          simp
          omega
        | succ k =>
          rw [Nat.testBit_add_one, Nat.testBit_add_one, e]
          exact h4 k (by omega)

/-- Only the successor has these bits. -/
theorem eq_succ_of_bits {X Y m : Nat} (h1 : X.testBit m = false) (h2 : Y.testBit m = true)
    (h3 : ∀ k > m, X.testBit k = Y.testBit k) (h4 : ∀ k < m, X.testBit k = true ∧ Y.testBit k = false) :
    Y = X + 1 := by
  obtain ⟨l, g1, g2, g3, g4⟩ := succ_bits X
  obtain rfl : m = l := by
    rcases lt_trichotomy m l with h | h | h
    · rw [(g4 m h).1] at h1
      cases h1
    · exact h
    · rw [(h4 l h).1] at g1
      cases g1
  refine Nat.eq_of_testBit_eq fun k => ?_
  rcases lt_trichotomy k m with h | h | h
  · rw [(h4 k h).2, (g4 k h).2]
  · rw [h, h2, g2]
  · rw [← h3 k h, g3 k h]

end Sys2Proof.Machine.Curve
end

