-- ==== Sys2Proof/Laws/Decode.lean ====
section
/-! SUPPORT. The fields of format C read back what was assembled into them, and REQ as a number read back as the
two signals of the channel (rules R73, R75, R76). -/

namespace Sys2Proof

/-! ## Format C -/

/-- ORDER reads back (rule R76). -/
@[simp] theorem orderField_cfgWord (order dim : BitVec 6) (rest : List Word) :
    orderField (cfgWord order dim :: rest) = order := by
  apply BitVec.eq_of_getLsbD_eq
  intro i hi
  simp only [orderField, cfgWord, List.getD_cons_zero]
  interval_cases i <;> simp

/-- DIM reads back (rule R76). -/
@[simp] theorem dimField_cfgWord (order dim : BitVec 6) (rest : List Word) :
    dimField (cfgWord order dim :: rest) = dim := by
  apply BitVec.eq_of_getLsbD_eq
  intro i hi
  simp only [dimField, cfgWord, List.getD_cons_zero]
  interval_cases i <;> simp

/-! ## REQ as a number -/

/-- One more lane is 32 bits more. -/
theorem pow_lanes_succ (n : Nat) : 2 ^ (32 * (n + 1)) = 2 ^ 32 * 2 ^ (32 * n) := by
  rw [← pow_add, Nat.mul_add, Nat.add_comm]

/-- `req_data` has 32 bits a lane (rule R72). -/
theorem dataToNat_lt (l : List Word) : dataToNat l < 2 ^ (32 * l.length) := by
  induction l with
  | nil => exact Nat.one_pos
  | cons d ds ih =>
    have h2 := d.isLt
    rw [List.length_cons, pow_lanes_succ, dataToNat]
    nlinarith

/-- Lane `i` is `req_data[32*i+31 : 32*i]`, whatever stands above `req_data` (rule R75). -/
theorem dataToNat_lane (l : List Word) (h : Nat) : ∀ i < l.length,
    BitVec.ofNat 32 ((dataToNat l + 2 ^ (32 * l.length) * h) >>> (32 * i)) = l.getD i 0 := by
  induction l with
  | nil => exact fun i hi => absurd hi (Nat.not_lt_zero i)
  | cons d ds ih =>
    intro i hi
    have hd := d.isLt
    have e : dataToNat (d :: ds) + 2 ^ (32 * (d :: ds).length) * h =
        d.toNat + 2 ^ 32 * (dataToNat ds + 2 ^ (32 * ds.length) * h) := by
      rw [List.length_cons, pow_lanes_succ, dataToNat, Nat.mul_add, Nat.mul_assoc, Nat.add_assoc]
    rw [e]
    cases i with
    | zero =>
      apply BitVec.eq_of_toNat_eq
      rw [BitVec.toNat_ofNat, Nat.mul_zero, Nat.shiftRight_zero, Nat.add_mul_mod_self_left,
        Nat.mod_eq_of_lt hd, List.getD_cons_zero]
    | succ i =>
      rw [List.getD_cons_succ, ← ih i (Nat.lt_of_succ_lt_succ hi),
        show 32 * (i + 1) = 32 + 32 * i by omega, Nat.shiftRight_add, Nat.shiftRight_eq_div_pow _ 32,
        Nat.add_mul_div_left _ _ (Nat.two_pow_pos 32), Nat.div_eq_of_lt hd, Nat.zero_add]

/-- REQ has `1 + 32*DMAX` bits (rule R72). -/
theorem Request.toNat_lt (r : Request) : r.toNat < 2 ^ (1 + 32 * r.data.length) := by
  have h1 := dataToNat_lt r.data
  have h2 := r.op.isLt
  rw [pow_add]
  simp only [Request.toNat]
  nlinarith

/-- The two signals read back from the number REQ (rule R73). -/
theorem Request.ofNat_toNat (r : Request) : Request.ofNat r.data.length r.toNat = r := by
  obtain ⟨op, data⟩ := r
  have h1 := dataToNat_lt data
  simp only [Request.ofNat, Request.toNat, Request.mk.injEq]
  constructor
  · apply BitVec.eq_of_toNat_eq
    rw [Nat.shiftRight_eq_div_pow, Nat.mul_comm, Nat.mul_add_div (by positivity), Nat.div_eq_of_lt h1]
    simp
  · apply List.ext_getElem (by simp)
    intro i h2 h3
    have := dataToNat_lane data op.toNat i h3
    simp only [List.getElem_map, List.getElem_range]
    rw [Nat.add_comm, Nat.mul_comm, this]
    simp [h3]

end Sys2Proof
end

