-- ==== Sys2Proof/Laws/State.lean ====
section
/-! SUPPORT. One lemma per field per update of the state, true by rfl, so that no later proof unfolds a record
update. -/

namespace Sys2Proof.Machine

variable (s : State)

/-! ## `State.drawn` -/

@[simp] theorem State.drawn_cfgOrder (n : Nat) : (s.drawn n).cfgOrder = s.cfgOrder := rfl
@[simp] theorem State.drawn_cfgDim (n : Nat) : (s.drawn n).cfgDim = s.cfgDim := rfl
@[simp] theorem State.drawn_inflight (n : Nat) : (s.drawn n).inflight = s.inflight := rfl
@[simp] theorem State.drawn_rst (n : Nat) : (s.drawn n).rst = s.rst := rfl
@[simp] theorem State.drawn_reqs (n : Nat) : (s.drawn n).reqs = s.reqs := rfl
@[simp] theorem State.drawn_delivered (n : Nat) : (s.drawn n).delivered = s.delivered := rfl
@[simp] theorem State.drawn_sched (n : Nat) : (s.drawn n).sched = s.sched := rfl
@[simp] theorem State.drawn_cur (n : Nat) : (s.drawn n).cur = s.cur := rfl
@[simp] theorem State.drawn_draws (n : Nat) : (s.drawn n).draws = s.draws + n := rfl

/-! ## `State.enter` -/

@[simp] theorem State.enter_cfgOrder (t : Txn) : (s.enter t).cfgOrder = s.cfgOrder := rfl
@[simp] theorem State.enter_cfgDim (t : Txn) : (s.enter t).cfgDim = s.cfgDim := rfl
@[simp] theorem State.enter_inflight (t : Txn) : (s.enter t).inflight = s.inflight ++ [t] := rfl
@[simp] theorem State.enter_rst (t : Txn) : (s.enter t).rst = s.rst := rfl
@[simp] theorem State.enter_reqs (t : Txn) : (s.enter t).reqs = s.reqs := rfl
@[simp] theorem State.enter_delivered (t : Txn) : (s.enter t).delivered = s.delivered := rfl
@[simp] theorem State.enter_sched (t : Txn) : (s.enter t).sched = s.sched := rfl
@[simp] theorem State.enter_cur (t : Txn) : (s.enter t).cur = s.inflight.length := rfl
@[simp] theorem State.enter_draws (t : Txn) : (s.enter t).draws = s.draws := rfl

/-! ## `State.put` -/

@[simp] theorem State.put_cfgOrder (t : Txn) : (s.put t).cfgOrder = s.cfgOrder := rfl
@[simp] theorem State.put_cfgDim (t : Txn) : (s.put t).cfgDim = s.cfgDim := rfl
@[simp] theorem State.put_inflight (t : Txn) : (s.put t).inflight = s.inflight.set s.cur t := rfl
@[simp] theorem State.put_rst (t : Txn) : (s.put t).rst = s.rst := rfl
@[simp] theorem State.put_reqs (t : Txn) : (s.put t).reqs = s.reqs := rfl
@[simp] theorem State.put_delivered (t : Txn) : (s.put t).delivered = s.delivered := rfl
@[simp] theorem State.put_sched (t : Txn) : (s.put t).sched = s.sched := rfl
@[simp] theorem State.put_cur (t : Txn) : (s.put t).cur = s.cur := rfl
@[simp] theorem State.put_draws (t : Txn) : (s.put t).draws = s.draws := rfl

/-! ## `State.setCfg` -/

@[simp] theorem State.setCfg_cfgOrder (order dim : BitVec 6) : (s.setCfg order dim).cfgOrder = order := rfl
@[simp] theorem State.setCfg_cfgDim (order dim : BitVec 6) : (s.setCfg order dim).cfgDim = dim := rfl
@[simp] theorem State.setCfg_inflight (order dim : BitVec 6) : (s.setCfg order dim).inflight = s.inflight := rfl
@[simp] theorem State.setCfg_rst (order dim : BitVec 6) : (s.setCfg order dim).rst = s.rst := rfl
@[simp] theorem State.setCfg_reqs (order dim : BitVec 6) : (s.setCfg order dim).reqs = s.reqs := rfl
@[simp] theorem State.setCfg_delivered (order dim : BitVec 6) : (s.setCfg order dim).delivered = s.delivered := rfl
@[simp] theorem State.setCfg_sched (order dim : BitVec 6) : (s.setCfg order dim).sched = s.sched := rfl
@[simp] theorem State.setCfg_cur (order dim : BitVec 6) : (s.setCfg order dim).cur = s.cur := rfl
@[simp] theorem State.setCfg_draws (order dim : BitVec 6) : (s.setCfg order dim).draws = s.draws := rfl

/-! ## `State.assertRst` -/

@[simp] theorem State.assertRst_cfgOrder : (s.assertRst).cfgOrder = 0 := rfl
@[simp] theorem State.assertRst_cfgDim : (s.assertRst).cfgDim = 0 := rfl
@[simp] theorem State.assertRst_inflight : (s.assertRst).inflight = [] := rfl
@[simp] theorem State.assertRst_rst : (s.assertRst).rst = true := rfl
@[simp] theorem State.assertRst_reqs : (s.assertRst).reqs = s.reqs := rfl
@[simp] theorem State.assertRst_delivered : (s.assertRst).delivered = s.delivered := rfl
@[simp] theorem State.assertRst_sched : (s.assertRst).sched = s.sched := rfl
@[simp] theorem State.assertRst_cur : (s.assertRst).cur = 0 := rfl
@[simp] theorem State.assertRst_draws : (s.assertRst).draws = s.draws := rfl

/-! ## `State.releaseRst` -/

@[simp] theorem State.releaseRst_cfgOrder : (s.releaseRst).cfgOrder = s.cfgOrder := rfl
@[simp] theorem State.releaseRst_cfgDim : (s.releaseRst).cfgDim = s.cfgDim := rfl
@[simp] theorem State.releaseRst_inflight : (s.releaseRst).inflight = s.inflight := rfl
@[simp] theorem State.releaseRst_rst : (s.releaseRst).rst = false := rfl
@[simp] theorem State.releaseRst_reqs : (s.releaseRst).reqs = s.reqs := rfl
@[simp] theorem State.releaseRst_delivered : (s.releaseRst).delivered = s.delivered := rfl
@[simp] theorem State.releaseRst_sched : (s.releaseRst).sched = s.sched := rfl
@[simp] theorem State.releaseRst_cur : (s.releaseRst).cur = s.cur := rfl
@[simp] theorem State.releaseRst_draws : (s.releaseRst).draws = s.draws := rfl

/-! ## `popChoice` -/

@[simp] theorem popChoice_cfgOrder : (popChoice s).cfgOrder = s.cfgOrder := rfl
@[simp] theorem popChoice_cfgDim : (popChoice s).cfgDim = s.cfgDim := rfl
@[simp] theorem popChoice_inflight : (popChoice s).inflight = s.inflight := rfl
@[simp] theorem popChoice_rst : (popChoice s).rst = s.rst := rfl
@[simp] theorem popChoice_reqs : (popChoice s).reqs = s.reqs := rfl
@[simp] theorem popChoice_delivered : (popChoice s).delivered = s.delivered := rfl
@[simp] theorem popChoice_sched : (popChoice s).sched = s.sched.tail := rfl
@[simp] theorem popChoice_cur : (popChoice s).cur = s.cur := rfl
@[simp] theorem popChoice_draws : (popChoice s).draws = s.draws := rfl

/-! ## Raising, responding, handing over -/

/-- The response an error ends with (rule R176). -/
def raisedResponse (w : Work) (e : BitVec 3) : Response :=
  { idx := Config.unspec64 s.draws, err := e, oor := w.oor }

/-- The response a transaction without error ends with (rule R145). -/
def finalResponse (w : Work) : Response := { idx := w.idx, err := w.err, oor := w.oor }

theorem State.raise_eq (w : Work) (e : BitVec 3) :
    s.raise w e = (s.put (.hidx { w with err := e, stg := .done } (some (raisedResponse s w e)))).drawn 1 := rfl

theorem State.respond_eq (w : Work) :
    s.respond w = s.put (.hidx { w with stg := .done } (some (finalResponse w))) := rfl

theorem State.handOver_eq (w : Work) : s.handOver w = s.put (.hidx w none) := rfl

@[simp] theorem raisedResponse_err (w : Work) (e : BitVec 3) : (raisedResponse s w e).err = e := rfl
@[simp] theorem raisedResponse_oor (w : Work) (e : BitVec 3) : (raisedResponse s w e).oor = w.oor := rfl
@[simp] theorem finalResponse_err (w : Work) : (finalResponse w).err = w.err := rfl
@[simp] theorem finalResponse_oor (w : Work) : (finalResponse w).oor = w.oor := rfl
@[simp] theorem finalResponse_idx (w : Work) : (finalResponse w).idx = w.idx := rfl

/-! ## The transaction whose turn it is -/

/-- A freshly entered transaction is the one whose turn it is. -/
@[simp] theorem State.enter_current (t : Txn) : (s.enter t).inflight[(s.enter t).cur]? = some t := by
  simp

/-- Writing the transaction whose turn it is is read back. -/
theorem State.put_current {t : Txn} (h : s.cur < s.inflight.length) :
    (s.put t).inflight[(s.put t).cur]? = some t := by
  simp [h]

/-- Writing the freshly entered transaction leaves the older ones alone. -/
theorem State.enter_put_inflight (t t' : Txn) :
    ((s.enter t).put t').inflight = s.inflight ++ [t'] := by
  simp

end Sys2Proof.Machine
end

