-- ==== Sys2Proof/Laws/Ops.lean ====
section
/-! SUPPORT. What the shared operations can do, said once each: running a stage, the two commands, delivering, one
event, one step. -/

namespace Sys2Proof.Machine

/-! ## Running a stage -/

/-- When a stage operation answers next, it ran at its stage and in its domain (rules R143, R145). -/
theorem runStage_next {st : Stage} {dom : Work → Bool} {f : Work → State → State} {s t : State}
    (h : runStage st dom f s = .next t) :
    ∃ w, AtStage s st w ∧ dom w = true ∧ t = f w s := by
  unfold runStage at h
  split at h
  · next w hw =>
    split at h
    · cases h
    · split at h
      · cases h
      · next h1 h2 =>
        cases h
        exact ⟨w, ⟨hw, not_not.1 h1⟩, by simpa using h2, rfl⟩
  · cases h

/-- At its stage and in its domain a stage operation answers next. -/
theorem runStage_of {st : Stage} {dom : Work → Bool} {f : Work → State → State} {s : State} {w : Work}
    (h : AtStage s st w) (hd : dom w = true) : runStage st dom f s = .next (f w s) := by
  simp [runStage, h.1, h.2, hd]

theorem runStage_noTransaction {st : Stage} {dom : Work → Bool} {f : Work → State → State} {s : State}
    (h : ∀ w, s.inflight[s.cur]? ≠ some (.hidx w none)) :
    runStage st dom f s = .refused .noTransaction := by
  unfold runStage
  split
  · next w hw => exact absurd hw (h w)
  · rfl

theorem runStage_outOfOrder {st : Stage} {dom : Work → Bool} {f : Work → State → State} {s : State}
    {w : Work} (h : s.inflight[s.cur]? = some (.hidx w none)) (hs : w.stg ≠ st) :
    runStage st dom f s = .refused .stageOutOfOrder := by
  simp [runStage, h, hs]

theorem runStage_outside {st : Stage} {dom : Work → Bool} {f : Work → State → State} {s : State}
    {w : Work} (h : AtStage s st w) (hd : dom w = false) :
    runStage st dom f s = .refused .outsideValidDomain := by
  simp [runStage, h.1, h.2, hd]

/-- A stage operation never faults; the machine has no fault. -/
theorem no_fault (φ : Fault) : False := nomatch φ

/-! ## The stage operations as one -/

/-- What a completed stage operation makes of the state, from the working copy whose turn it is. -/
def stageEffect (i : Instr) (w : Work) (s : State) : State :=
  match i with
  | .hidx _ => s
  | .cfgwr _ _ => s
  | .val => valStage w s
  | .ewr => s.put (.hidx (ewr w) none)
  | .gray => s.put (.hidx (gray w) none)
  | .fcor => s.put (.hidx (fcor w) none)
  | .pack => s.respond (pack w)

/-- A stage operation completes at its stage under a valid configuration and, after VAL, on a valid point
(rules R143, R144, R145). -/
theorem exec_stage_of {i : Instr} {st : Stage} {s : State} {w : Work} (hi : stageOf i = some st)
    (h : AtStage s st w) (hc : ValidConfig w.x.length w.ord w.dim)
    (hp : st ≠ .val → ValidPoint w.ord w.dim w.x) : exec i s = .next (stageEffect i w s) := by
  have hv := (configValid_iff w).2 hc
  cases i <;> cases hi
  · exact runStage_of h hv
  · exact runStage_of (f := stageEffect .ewr) h ((stageDomain_iff w).2 ⟨hc, hp (by decide)⟩)
  · exact runStage_of (f := stageEffect .gray) h ((stageDomain_iff w).2 ⟨hc, hp (by decide)⟩)
  · exact runStage_of (f := stageEffect .fcor) h ((stageDomain_iff w).2 ⟨hc, hp (by decide)⟩)
  · exact runStage_of (f := stageEffect .pack) h ((stageDomain_iff w).2 ⟨hc, hp (by decide)⟩)

/-- And only so. -/
theorem exec_stage_next {i : Instr} {st : Stage} {s t : State} (hi : stageOf i = some st)
    (h : exec i s = .next t) :
    ∃ w, AtStage s st w ∧ ValidConfig w.x.length w.ord w.dim ∧
      (st ≠ .val → ValidPoint w.ord w.dim w.x) ∧ t = stageEffect i w s := by
  cases i <;> cases hi
  · obtain ⟨w, hw, hd, rfl⟩ := runStage_next (f := stageEffect .val) h
    exact ⟨w, hw, (configValid_iff w).1 hd, fun hne => absurd rfl hne, rfl⟩
  · obtain ⟨w, hw, hd, rfl⟩ := runStage_next (f := stageEffect .ewr) h
    exact ⟨w, hw, ((stageDomain_iff w).1 hd).1, fun _ => ((stageDomain_iff w).1 hd).2, rfl⟩
  · obtain ⟨w, hw, hd, rfl⟩ := runStage_next (f := stageEffect .gray) h
    exact ⟨w, hw, ((stageDomain_iff w).1 hd).1, fun _ => ((stageDomain_iff w).1 hd).2, rfl⟩
  · obtain ⟨w, hw, hd, rfl⟩ := runStage_next (f := stageEffect .fcor) h
    exact ⟨w, hw, ((stageDomain_iff w).1 hd).1, fun _ => ((stageDomain_iff w).1 hd).2, rfl⟩
  · obtain ⟨w, hw, hd, rfl⟩ := runStage_next (f := stageEffect .pack) h
    exact ⟨w, hw, ((stageDomain_iff w).1 hd).1, fun _ => ((stageDomain_iff w).1 hd).2, rfl⟩

/-! ## VAL, the one stage with two ends -/

theorem valStage_pass {w : Work} {s : State} (h : (oorMask w).any id = false) :
    valStage w s = s.put (.hidx { w with oor := oorMask w, stg := .ewr } none) := by
  simp [valStage, valMarks, h, State.handOver]

theorem valStage_report {w : Work} {s : State} (h : (oorMask w).any id = true) :
    valStage w s = s.raise { w with oor := oorMask w } errOOR := by
  simp [valStage, valMarks, h]

/-! ## The two commands -/

/-- HIDX under a valid configuration: one live transaction more (rule R141). -/
theorem execHidxAt_valid {c : Config.Params} {s : State} (lanes : List Word)
    (h : ValidConfig c.dmax s.cfgOrder s.cfgDim) :
    execHidxAt c lanes s = .next ((s.enter (.hidx (newWork c.dmax lanes s) none)).drawn newWorkDraws) := by
  have h0 : cfgErr c.dmax (newWork c.dmax lanes s).ord (newWork c.dmax lanes s).dim = 0 :=
    (cfgErr_eq_zero_iff _ _ _).2 h
  simp [execHidxAt, h0]

/-- HIDX under an invalid configuration: one transaction more, at DONE, with (UD, 0, CE) (rule R143). -/
theorem execHidxAt_invalid {c : Config.Params} {s : State} (lanes : List Word)
    (h : ¬ ValidConfig c.dmax s.cfgOrder s.cfgDim) :
    execHidxAt c lanes s = .next
      (((s.enter (.hidx (newWork c.dmax lanes s) none)).drawn newWorkDraws).raise
        (newWork c.dmax lanes s) (cfgErr c.dmax s.cfgOrder s.cfgDim)) := by
  have h0 : ¬ cfgErr c.dmax (newWork c.dmax lanes s).ord (newWork c.dmax lanes s).dim = 0 :=
    fun e => h ((cfgErr_eq_zero_iff _ _ _).1 e)
  simp only [execHidxAt, ne_eq, h0, not_false_eq_true, if_true]
  rfl

/-- An error raised by the transaction just entered (rules R143, R176). -/
theorem enter_raise (s : State) (w v : Work) (n : Nat) (e : BitVec 3) :
    ((s.enter (.hidx w none)).drawn n).raise v e = { s with
      inflight := s.inflight ++ [.hidx { v with err := e, stg := .done }
        (some { idx := Config.unspec64 (s.draws + n), err := e, oor := v.oor })]
      cur := s.inflight.length
      draws := s.draws + n + 1 } := by
  simp [State.raise, State.put, State.drawn, State.enter]

/-- A host command always answers next (rules R74, R161). -/
theorem execHidxAt_completes (c : Config.Params) (lanes : List Word) (s : State) :
    ∃ t, execHidxAt c lanes s = .next t := by
  by_cases h : ValidConfig c.dmax s.cfgOrder s.cfgDim
  · exact ⟨_, execHidxAt_valid lanes h⟩
  · exact ⟨_, execHidxAt_invalid lanes h⟩

/-! ## Delivering -/

/-- A delivery changes nothing, or hands over the oldest response (rules R57 (4), R82). -/
theorem deliver_cases (s : State) :
    (s.deliver = s ∧ ∀ x rest, s.inflight = x :: rest → x.response = none) ∨
    ∃ x rest r, s.inflight = x :: rest ∧ x.response = some r ∧
      s.deliver = { s with inflight := rest, delivered := s.delivered ++ [r] } := by
  unfold State.deliver
  split
  · next h => exact .inl ⟨rfl, fun x rest h' => by simp [h] at h'⟩
  · next x rest h =>
    split
    · next hr =>
      refine .inl ⟨rfl, fun x' rest' h' => ?_⟩
      obtain ⟨rfl, rfl⟩ := List.cons.inj (h.symm.trans h')
      exact hr
    · next r hr => exact .inr ⟨x, rest, r, h, hr, rfl⟩

/-! ## The block behind the fixed names is the block with `Config.params` -/

theorem exec_eq_execAt : exec = execAt Config.params := by
  funext i s
  cases i <;> rfl

theorem step_eq_stepAt : step = stepAt Config.params := by
  funext s
  rw [step, stepAt, exec_eq_execAt]

/-! ## The stage operations by their STG (rules R26, R78) -/

theorem decodeStage_code {st : Stage} {i : Instr} (h : decodeStage st.code = .ok i) :
    stageOf i = some st := by
  cases st <;> first | (injection h with h; subst h; rfl) | exact nomatch h

theorem decodeStage_of_stageOf {st : Stage} {i : Instr} (h : stageOf i = some st) :
    decodeStage st.code = .ok i := by
  cases i <;> cases h <;> rfl

theorem decodeStage_done {st : Stage} {e : DecodeError} (h : decodeStage st.code = .error e) :
    st = .done := by
  cases st <;> first | rfl | exact nomatch h

/-- Decoding a request gives a host command, never a stage operation (rules R74, R78). -/
theorem decodeRequest_cases {dmax : Nat} {r : Request} {i : Instr}
    (h : decodeRequest dmax r = .ok i) :
    r.data.length = dmax ∧
      ((r.op = 0#1 ∧ i = .hidx r.data) ∨
       (r.op = 1#1 ∧ i = .cfgwr (orderField r.data) (dimField r.data))) := by
  unfold decodeRequest at h
  split at h
  · cases h
  · next hl =>
    refine ⟨not_not.1 hl, ?_⟩
    split at h
    · next ho => injection h with h; exact .inl ⟨ho, h.symm⟩
    · next ho =>
      injection h with h
      refine .inr ⟨?_, h.symm⟩
      have := r.op.isLt
      apply BitVec.eq_of_toNat_eq
      have : r.op.toNat ≠ 0 := fun e => ho (BitVec.eq_of_toNat_eq (by simpa using e))
      simp; omega

theorem decodeRequest_of_length {dmax : Nat} {r : Request} (h : r.data.length = dmax) :
    ∃ i, decodeRequest dmax r = .ok i := by
  unfold decodeRequest
  rw [if_neg (not_not.2 h)]
  split <;> exact ⟨_, rfl⟩

/-! ## One step -/

/-- What a step can be: nothing, or one event after the choice has been read. -/
theorem stepAt_cases {c : Config.Params} {s t : State} (h : stepAt c s = .next t) :
    (nextChoice s = none ∧ t = s) ∨
    ∃ ch, nextChoice s = some ch ∧ perform c (execAt c) ch (popChoice s) = .next t := by
  unfold stepAt stepWith at h
  split at h
  · next hc => cases h; exact .inl ⟨hc, rfl⟩
  · next ch hc => exact .inr ⟨ch, hc, h⟩

/-- What one event can be when it answers next (rules R26, R55, R71, R200). -/
theorem perform_cases {c : Config.Params} {ch : Choice} {s t : State}
    (h : perform c (execAt c) ch s = .next t) :
    t = s ∨
    (ch = .rst true ∧ t = s.assertRst) ∨
    (ch = .rst false ∧ t = s.releaseRst) ∨
    (ch = .deliver ∧ s.rst = false ∧ t = s.deliver) ∨
    (∃ r rest i, ch = .accept ∧ s.reqReady c = true ∧ s.reqs = r :: rest ∧
      decodeRequest c.dmax r = .ok i ∧ execAt c i { s with reqs := rest } = .next t) ∨
    (∃ k w i, ch = .advance k ∧ s.rst = false ∧ s.inflight[k]? = some (.hidx w none) ∧
      decodeStage w.stg.code = .ok i ∧ execAt c i { s with cur := k } = .next t) := by
  cases ch with
  | rst level =>
    cases level with
    | true => cases h; exact .inr (.inl ⟨rfl, rfl⟩)
    | false => cases h; exact .inr (.inr (.inl ⟨rfl, rfl⟩))
  | deliver =>
    simp only [perform] at h
    split at h
    · cases h; exact .inl rfl
    · next hr =>
      cases h
      exact .inr (.inr (.inr (.inl ⟨rfl, by simpa using hr, rfl⟩)))
  | accept =>
    simp only [perform, acceptNext] at h
    split at h
    · next hr =>
      split at h
      · cases h; exact .inl rfl
      · next r rest hq =>
        split at h
        · next i hi => exact .inr (.inr (.inr (.inr (.inl ⟨r, rest, i, rfl, hr, hq, hi, h⟩))))
        · cases h
    · cases h; exact .inl rfl
  | advance k =>
    simp only [perform] at h
    split at h
    · cases h; exact .inl rfl
    · next hr =>
      simp only [advanceTxn] at h
      split at h
      · next w hw =>
        split at h
        · next i hi =>
          exact .inr (.inr (.inr (.inr (.inr ⟨k, w, i, rfl, by simpa using hr, hw, hi, h⟩))))
        · cases h; exact .inl rfl
      · cases h; exact .inl rfl

theorem reqReady_iff {c : Config.Params} {s : State} :
    s.reqReady c = true ↔ s.rst = false ∧ s.inflight.length < c.depth := by
  simp [State.reqReady, State.full]

end Sys2Proof.Machine
end

