-- ==== Sys2Proof/Laws/PerInstr.lean ====
section
/-! SUPPORT. What is said of every instruction as syntax: its encoding at the default DMAX = 3 lies in its own row
of `opcode_table.json`. -/

namespace Sys2Proof.Laws

/-- Width, mask and match of the rows of `opcode_table.json`, copied from that file. -/
def tableRow : Instr → Nat × Nat × Nat
  | .hidx _ => (97, 0x1000000000000000000000000, 0x0000000000000000000000000)
  | .cfgwr _ _ => (97, 0x1000000000000000000000000, 0x1000000000000000000000000)
  | .val => (3, 0b111, 0b000)
  | .ewr => (3, 0b111, 0b001)
  | .gray => (3, 0b111, 0b010)
  | .fcor => (3, 0b111, 0b011)
  | .pack => (3, 0b111, 0b100)

/-- The encoding of a well-formed instruction has the width of its row, and its match under its mask. -/
def TableRow.Statement (i : Instr) : Prop :=
  i.wf 3 = true →
    encodedBits 3 i = (tableRow i).1 ∧ encodeWord 3 i &&& (tableRow i).2.1 = (tableRow i).2.2

/-- Bit 96 of a number below `2^97` in two parts. -/
theorem and_bit (n b a : Nat) (hb : b < 2) (ha : a < 2 ^ n) : (b * 2 ^ n + a) &&& 2 ^ n = b * 2 ^ n := by
  rw [Nat.and_two_pow, Nat.testBit_eq_decide_div_mod_eq, Nat.mul_comm b, Nat.mul_add_div (Nat.two_pow_pos _),
    Nat.div_eq_of_lt ha, Nat.add_zero, Nat.mul_comm (2 ^ n)]
  obtain rfl | rfl : b = 0 ∨ b = 1 := by omega
  · rfl
  · rfl

/-- `req_op` is bit 96 of REQ (rule R73). -/
theorem request_and_opBit (r : Request) (h : r.data.length = 3) :
    r.toNat &&& 2 ^ 96 = r.op.toNat * 2 ^ 96 := by
  have h1 := dataToNat_lt r.data
  rw [Request.toNat, h] at *
  exact and_bit 96 _ _ r.op.isLt h1

theorem TableRow.hidx (lanes : List Word) : TableRow.Statement (.hidx lanes) := by
  intro h
  refine ⟨rfl, ?_⟩
  have := request_and_opBit { op := 0#1, data := lanes } (by simpa [Instr.wf] using h)
  simpa [encodeWord, encode, tableRow] using this

theorem TableRow.cfgwr (order dim : BitVec 6) : TableRow.Statement (.cfgwr order dim) := by
  intro _
  refine ⟨rfl, ?_⟩
  have := request_and_opBit { op := 1#1, data := cfgWord order dim :: List.replicate 2 0 } rfl
  simpa [encodeWord, encode, tableRow] using this

theorem TableRow.val : TableRow.Statement .val := fun _ => ⟨rfl, rfl⟩

theorem TableRow.ewr : TableRow.Statement .ewr := fun _ => ⟨rfl, rfl⟩

theorem TableRow.gray : TableRow.Statement .gray := fun _ => ⟨rfl, rfl⟩

theorem TableRow.fcor : TableRow.Statement .fcor := fun _ => ⟨rfl, rfl⟩

theorem TableRow.pack : TableRow.Statement .pack := fun _ => ⟨rfl, rfl⟩

end Sys2Proof.Laws
end

