-- ==== Sys2Proof/Laws/Transactions.lean ====
section
/-! SUPPORT. What an event makes of the transactions in flight: a completed stage operation, an accepted
request, a delivery.  Each lemma says everything the event can do to the soundness and to the answer of a
transaction. -/

namespace Sys2Proof.Machine

/-- The block behind the fixed names has legal parameters (rules R11, R210). -/
theorem params_wf : Config.params.wf := ⟨by decide, by decide, Nat.succ_pos _⟩

/-! ## Stage operations -/

/-- A stage operation changes no field of the state but the transactions in flight and, for VAL, the draws. -/
theorem stageEffect_frame (i : Instr) (w : Work) (s : State) :
    (stageEffect i w s).cfgOrder = s.cfgOrder ∧ (stageEffect i w s).cfgDim = s.cfgDim ∧
    (stageEffect i w s).rst = s.rst ∧ (stageEffect i w s).reqs = s.reqs ∧
    (stageEffect i w s).delivered = s.delivered ∧ (stageEffect i w s).sched = s.sched ∧
    (stageEffect i w s).cur = s.cur ∧ (i ≠ .val → (stageEffect i w s).draws = s.draws) := by
  cases i <;> (try exact ⟨rfl, rfl, rfl, rfl, rfl, rfl, rfl, fun _ => rfl⟩)
  by_cases h : (oorMask w).any id = true
  · simp only [stageEffect, valStage_report h]
    exact ⟨rfl, rfl, rfl, rfl, rfl, rfl, rfl, fun h => absurd rfl h⟩
  · simp only [stageEffect, valStage_pass (by simpa using h)]
    exact ⟨rfl, rfl, rfl, rfl, rfl, rfl, rfl, fun h => absurd rfl h⟩

/-- A stage operation puts one transaction in the place of the one whose turn it is; from a live working copy that
transaction is sound and on its way to the same answer (rule R145). -/
theorem stageEffect_txn {i : Instr} {st : Stage} (hi : stageOf i = some st) (w : Work) (s : State) :
    ∃ t', (stageEffect i w s).inflight = s.inflight.set s.cur t' ∧
      ∀ dmax, w.Live dmax → w.stg = st → t'.Sound dmax ∧ t'.answer = w.answer := by
  cases i <;> cases hi
  · by_cases h : (oorMask w).any id = true
    · refine ⟨.hidx { w with oor := oorMask w, err := errOOR, stg := .done }
        (some (raisedResponse s { w with oor := oorMask w } errOOR)),
        by simp only [stageEffect, valStage_report h]; rfl, fun dmax hl hst => ?_⟩
      obtain ⟨l1, l2, l3, l4, l5, l6⟩ := hl
      refine ⟨⟨l1, rfl, ⟨by rw [raisedResponse_err, errOOR_eq]; decide, by simp [l2], ?_⟩,
        rfl, rfl, ?_, ?_⟩, ?_⟩
      · simp only [raisedResponse_oor, raisedResponse_err, errOOR_eq, h]
      · intro i hi
        show (oorMask w).getD i false = false
        rw [← Bool.not_eq_true, oorMask_getD]
        show ¬ _
        have hi' : w.dim.toNat ≤ i := hi
        omega
      · intro h0
        rw [raisedResponse_err, errOOR_eq] at h0
        exact absurd h0 (by decide)
      · have : (errOOR = 0#3) = False := by simp [errOOR_eq]
        simp [Txn.answer, Work.answer, hst, h, raisedResponse, this]
    · have hf : (oorMask w).any id = false := by simpa using h
      refine ⟨.hidx { w with oor := oorMask w, stg := .ewr } none,
        by simp only [stageEffect, valStage_pass hf]; rfl, fun dmax hl hst => ?_⟩
      obtain ⟨l1, l2, l3, l4, l5, l6⟩ := hl
      have hp : ValidPoint w.ord w.dim w.x := by
        have := oorMask_any_iff w (by rw [l2, noOor_length]; exact l5.2.2.1)
        rw [hf] at this
        simpa using this
      have hd : InDomain w := ⟨by rw [l1]; exact l5, hp⟩
      refine ⟨⟨l1, by show oorMask w = _; rw [oorMask_eq_noOor w hf, l2, noOor_length], l3, nofun,
        l5, fun _ => hp⟩, ?_⟩
      simp only [Txn.answer, Work.answer, hst]
      rw [hf]
      simp only [Bool.false_eq_true, if_false]
      congr 2
      exact transform_congr (w := { w with oor := oorMask w, stg := .ewr }) hd hd rfl rfl rfl
  · refine ⟨_, rfl, fun dmax hl hst => ?_⟩
    obtain ⟨l1, l2, l3, l4, l5, l6⟩ := hl
    have hd : InDomain w := ⟨by rw [l1]; exact l5, l6 (by rw [hst]; decide)⟩
    obtain ⟨g0, g1, g2, g3, g4, g5, g6, g7⟩ := ewr_spec hd.1.1 hd.1.order_le
    refine ⟨⟨by rw [ewr_length hd, l1], by rw [g6, l2], by rw [g5, l3], by rw [g7]; decide,
      by rw [g3, g4]; exact l5, fun _ => by rw [g3, g4]; exact ewr_validPoint hd⟩, ?_⟩
    simp only [Txn.answer, Work.answer, hst, g7, g5, g6]
  · refine ⟨_, rfl, fun dmax hl hst => ?_⟩
    obtain ⟨l1, l2, l3, l4, l5, l6⟩ := hl
    have hd : InDomain w := ⟨by rw [l1]; exact l5, l6 (by rw [hst]; decide)⟩
    have hlen := (grayLanes_spec (x := w.x) (by have := hd.1.2.1; omega) hd.1.2.2.1).1
    refine ⟨⟨hlen.trans l1, l2, l3, nofun, l5, fun _ => gray_validPoint hd⟩, ?_⟩
    simp only [Txn.answer, Work.answer, hst]
    rfl
  · refine ⟨_, rfl, fun dmax hl hst => ?_⟩
    obtain ⟨l1, l2, l3, l4, l5, l6⟩ := hl
    have hd : InDomain w := ⟨by rw [l1]; exact l5, l6 (by rw [hst]; decide)⟩
    obtain ⟨h1, h2, h3, h4, h5, h6, h7, h8, h9, h10⟩ := fcor_spec hd
    refine ⟨⟨by rw [fcor_length hd, l1], by rw [h9, l2], by rw [h8, l3], by rw [h10]; decide,
      by rw [h6, h7]; exact l5, fun _ => by rw [h6, h7]; exact fcor_validPoint hd⟩, ?_⟩
    simp only [Txn.answer, Work.answer, hst, h8, h9, h10]
  · refine ⟨_, rfl, fun dmax hl hst => ?_⟩
    obtain ⟨l1, l2, l3, l4, l5, l6⟩ := hl
    have hm : w.ord.toNat * w.dim.toNat ≤ 64 := by
      have := l5.2.2.2
      rw [Nat.mul_comm]
      omega
    refine ⟨⟨l1, rfl, ⟨?_, ?_, ?_⟩, rfl, rfl, ?_, ?_⟩, ?_⟩
    · exact .inl l3
    · show w.oor.length = _
      rw [l2, noOor_length]
    · show w.oor.any id = true ↔ w.err = 2#3
      rw [l2, l3, noOor_any]
      decide
    · intro i _
      show w.oor.getD i false = _
      rw [l2, noOor_getD]
    · intro _
      refine ⟨rfl, l5, ?_⟩
      show (packIndex w.ord.toNat w.dim.toNat w.x).toNat < _
      rw [Nat.mul_comm]
      exact packIndex_lt _ hm
    · have : (pack w).err = 0#3 := l3
      simp [Txn.answer, Work.answer, hst, this, l3]
      rfl

/-! ## Acceptance -/

/-- The working copy of a HIDX accepted under a valid configuration is live (rules R141, R143). -/
theorem newWork_live {c : Config.Params} {s : State} {lanes : List Word} (hl : lanes.length = c.dmax)
    (h : ValidConfig c.dmax s.cfgOrder s.cfgDim) : (newWork c.dmax lanes s).Live c.dmax :=
  ⟨hl, rfl, rfl, nofun, h, fun h => absurd rfl h⟩

/-- Its answer is the one-step function of its lanes and of CFG, whatever the free values are (rule R145). -/
theorem newWork_answer {c : Config.Params} {s : State} {lanes : List Word} (hl : lanes.length = c.dmax)
    (h : ValidConfig c.dmax s.cfgOrder s.cfgDim) :
    (newWork c.dmax lanes s).answer = hidxAnswer c.dmax s.cfgOrder s.cfgDim lanes := by
  have h0 := (cfgErr_eq_zero_iff _ _ _).2 h
  have hm : oorMask (newWork c.dmax lanes s) = oorMask (pointWork s.cfgOrder s.cfgDim lanes) := by
    simp only [oorMask, newWork, pointWork, hl]
    rfl
  simp only [hidxAnswer, h0, ne_eq, not_true_eq_false, if_false, Work.answer]
  show (if (oorMask (newWork c.dmax lanes s)).any id = true then _ else _) = _
  rw [hm]
  by_cases hy : (oorMask (pointWork s.cfgOrder s.cfgDim lanes)).any id = true
  · simp [hy]
  · rw [if_neg hy, if_neg hy]
    have hf : (oorMask (newWork c.dmax lanes s)).any id = false := by
      rw [hm]
      simpa using hy
    have hp : ValidPoint s.cfgOrder s.cfgDim lanes := by
      have := oorMask_any_iff (newWork c.dmax lanes s)
        (by show _ ≤ (noOor c.dmax).length; rw [noOor_length]; exact h.2.2.1)
      rw [hf] at this
      exact not_not.1 fun h => by simpa using this.2 h
    have hd : InDomain (newWork c.dmax lanes s) :=
      ⟨by show ValidConfig lanes.length _ _; rw [hl]; exact h, hp⟩
    rw [transform_eq_hilbertIndex hd, ← hm, oorMask_eq_noOor _ hf]
    show Answer.mk _ (noOor (noOor c.dmax).length) _ = _
    rw [noOor_length]
    rfl

/-- The error vector of a configuration is a legal one, and not OOR (rule R174). -/
theorem cfgErr_legal (dmax : Nat) (o d : BitVec 6) :
    LegalErr (cfgErr dmax o d) ∧ cfgErr dmax o d ≠ 2#3 := by
  rcases cfgErr_cases dmax o d with h | h | h | h <;> rw [h] <;> decide

/-- OORLANES 0 is right for every error vector of a configuration (rule R175). -/
theorem noOor_any_iff_cfgErr (dmax : Nat) (o d : BitVec 6) :
    (noOor dmax).any id = true ↔ cfgErr dmax o d = 2#3 := by
  rw [noOor_any]
  exact ⟨nofun, fun h => absurd h (cfgErr_legal _ _ _).2⟩

/-- Everything an acceptance does: one sound transaction enters behind all others, on its way to the answer of the
request under CFG as it stands; only a CFGWR writes CFG; and if its response is complete, it gives that
answer (rules R57, R141, R160). -/
theorem accept_spec {c : Config.Params} {r : Request} {i : Instr} {s : State}
    (hd : decodeRequest c.dmax r = .ok i) :
    ∃ t tx, execAt c i s = .next t ∧ t.inflight = s.inflight ++ [tx] ∧ tx.Sound c.dmax ∧
      acceptAnswer c.dmax s i = some tx.answer ∧
      t.reqs = s.reqs ∧ t.delivered = s.delivered ∧ t.sched = s.sched ∧ t.rst = s.rst ∧
      ((∃ o d, i = .cfgwr o d ∧ t.cfgOrder = o ∧ t.cfgDim = d) ∨
        (∃ l, i = .hidx l ∧ t.cfgOrder = s.cfgOrder ∧ t.cfgDim = s.cfgDim)) ∧
      (tx.response = none ∨ ∃ r, tx.response = some r ∧ r.Gives tx.answer) := by
  obtain ⟨hl, ⟨ho, rfl⟩ | ⟨ho, rfl⟩⟩ := decodeRequest_cases hd
  · by_cases hv : ValidConfig c.dmax s.cfgOrder s.cfgDim
    · refine ⟨_, .hidx (newWork c.dmax r.data s) none, execHidxAt_valid _ hv, rfl, newWork_live hl hv,
        ?_, rfl, rfl, rfl, rfl, .inr ⟨_, rfl, rfl, rfl⟩, .inl rfl⟩
      rw [acceptAnswer, ← newWork_answer hl hv]
      rfl
    · have e := execHidxAt_invalid (c := c) r.data hv
      rw [enter_raise] at e
      have h0 : ¬ cfgErr c.dmax s.cfgOrder s.cfgDim = 0#3 := fun h => hv ((cfgErr_eq_zero_iff _ _ _).1 h)
      refine ⟨_, _, e, rfl,
        ⟨hl, rfl, ⟨(cfgErr_legal _ _ _).1, noOor_length _, noOor_any_iff_cfgErr _ _ _⟩, rfl, rfl,
          fun i _ => noOor_getD _ _, fun h => absurd h h0⟩,
        ?_, rfl, rfl, rfl, rfl, .inr ⟨_, rfl, rfl, rfl⟩, .inr ⟨_, rfl, rfl, rfl, fun v hv => ?_⟩⟩
      · simp [acceptAnswer, hidxAnswer, h0, Txn.answer, newWork]
      · simp [Txn.answer, h0] at hv
  · exact ⟨_, .cfgwr (cfgwrResponse c.dmax _ _ s), rfl, rfl,
      ⟨⟨(cfgErr_legal _ _ _).1, noOor_length _, noOor_any_iff_cfgErr _ _ _⟩, (cfgErr_legal _ _ _).2⟩,
      rfl, rfl, rfl, rfl, rfl, .inl ⟨_, _, rfl, rfl, rfl⟩, .inr ⟨_, rfl, rfl, rfl, nofun⟩⟩

/-! ## Delivery -/

/-- The complete response of a sound transaction gives its answer and is sound (rules R81, R176). -/
theorem Txn.Sound.gives {dmax : Nat} {x : Txn} {r : Response} (hs : x.Sound dmax)
    (hr : x.response = some r) : r.Gives x.answer ∧ r.Sound dmax := by
  cases x with
  | cfgwr r' =>
    cases hr
    exact ⟨⟨rfl, rfl, nofun⟩, hs.1⟩
  | hidx w o =>
    cases o with
    | none => cases hr
    | some r' =>
      cases hr
      refine ⟨⟨rfl, rfl, fun v hv => ?_⟩, hs.2.2.1⟩
      simp only [Txn.answer] at hv
      split at hv
      · exact Option.some.inj hv
      · cases hv

end Sys2Proof.Machine
end

