-- ==== Sys2Proof/Tests/Slice0.lean ====
section
/-! SUPPORT. The model's own tests, then a witness for the hypotheses of every statement that has some.  Expected
results are written out by hand from `30_encoding.md` and `95_test_vectors.md`, as each test says. -/

namespace Sys2Proof.Tests

open Sys2Proof.Machine

/-! ## Helpers -/

/-- A working copy at a stage, every scalar 0. -/
def work (st : Stage) (ord dim : BitVec 6) (x : List Word) : Work :=
  { pointWork ord dim x with stg := st }

/-- The block right after reset but for one transaction in flight. -/
def busy (w : Work) : State := { State.reset with inflight := [.hidx w none] }

/-- The block right after reset but for its configuration. -/
def configured (order dim : BitVec 6) : State := State.reset.setCfg order dim

/-- The youngest transaction after an instruction. -/
def youngest : Host.Outcome State Fault Refusal → Option Txn
  | .next s => s.inflight.getLast?
  | .fault _ => none
  | .refused _ => none

/-- The working copy of the youngest transaction. -/
def workAfter (o : Host.Outcome State Fault Refusal) : Option Work :=
  match youngest o with
  | some (.hidx w _) => some w
  | some (.cfgwr _) => none
  | none => none

/-- The response of the youngest transaction. -/
def responseAfter (o : Host.Outcome State Fault Refusal) : Option Response :=
  (youngest o).bind Txn.response

/-- CFG after an instruction. -/
def cfgAfter : Host.Outcome State Fault Refusal → Option (BitVec 6 × BitVec 6)
  | .next s => some (s.cfgOrder, s.cfgDim)
  | .fault _ => none
  | .refused _ => none

/-! ## Well-formedness: the check refuses ill-formed terms (rules R72, R75) -/

theorem test_wf_hidx : (Instr.hidx [5, 2, 7]).wf 3 = true := by decide
theorem test_wf_hidx_lane_missing : (Instr.hidx [5, 2]).wf 3 = false := by decide
theorem test_wf_hidx_lane_too_many : (Instr.hidx [5, 2, 7, 0]).wf 3 = false := by decide
theorem test_wf_request_lane_missing : Request.wf 3 { op := 0, data := [5, 2] } = false := by decide
theorem test_ill_formed_request_is_rejected :
    decodeRequest 3 { op := 0, data := [5, 2] } = .error .wrongLanes := by decide

/-! ## Decoding, from words written out bit by bit

Request words (rules R73, R75, R76): `req_op`, then lane 2, lane 1, lane 0, the highest bit first. -/

/-- Rule R86: `HIDX 5, 2, 7`. -/
theorem test_decode_hidx : decodeTableWord 104
    0b0_00000000000000000000000000000111_00000000000000000000000000000010_00000000000000000000000000000101
    = some (.hidx [5, 2, 7]) := by decide

/-- Rule R86: `CFGWR 22, 3`; DIM is bits 13 to 8, ORDER bits 5 to 0. -/
theorem test_decode_cfgwr : decodeTableWord 104
    0b1_00000000000000000000000000000000_00000000000000000000000000000000_000000000000000000_000011_00_010110
    = some (.cfgwr 22 3) := by decide

/-- `95_test_vectors.md` section 2.1: every ignored bit 1 (rule R76). -/
theorem test_decode_cfgwr_ignored_bits : decodeTableWord 104
    0b1_11111111111111111111111111111111_11111111111111111111111111111111_111111111111111111_000010_11_000001
    = some (.cfgwr 1 2) := by decide

theorem test_decode_val : decodeTableWord 8 0b000 = some .val := by decide
theorem test_decode_ewr : decodeTableWord 8 0b001 = some .ewr := by decide
theorem test_decode_gray : decodeTableWord 8 0b010 = some .gray := by decide
theorem test_decode_fcor : decodeTableWord 8 0b011 = some .fcor := by decide
theorem test_decode_pack : decodeTableWord 8 0b100 = some .pack := by decide

/-- STG 5 is DONE, 6 and 7 never occur (rules R26, R79). -/
theorem test_decode_no_stage : decodeStageWord 0b101 = .error .noSuchStage ∧
    decodeStageWord 0b110 = .error .noSuchStage ∧ decodeStageWord 0b111 = .error .noSuchStage := by decide

/-- A number with more than 97 bits is no request at DMAX = 3 (rule R72). -/
theorem test_decode_too_wide : decodeReqWord 3 (2 ^ 97) = .error .tooWide := by decide

/-! ## Instructions (`95_test_vectors.md`) -/

/-- Section 2.1: `CFGWR 63, 63` stores both fields and answers 101. -/
theorem test_cfgwr_largest_fields : cfgAfter (exec (.cfgwr 63 63) State.reset) = some (63, 63) ∧
    (responseAfter (exec (.cfgwr 63 63) State.reset)).map (·.err) = some 0b101 := by decide

/-- Section 2.1: the product exactly 64 is CE, 63 is not. -/
theorem test_cfgwr_product :
    (responseAfter (exec (.cfgwr 32 2) State.reset)).map (·.err) = some 0b001 ∧
    (responseAfter (exec (.cfgwr 21 3) State.reset)).map (·.err) = some 0b000 := by decide

/-- Section 2.2: under `CFGWR 22, 3` a HIDX answers 001 with OOR 000, whatever its lanes. -/
theorem test_hidx_invalid_configuration :
    (responseAfter (exec (.hidx [0xFFFFFFFF, 0xFFFFFFFF, 0xFFFFFFFF]) (configured 22 3))).map
      (fun r => (r.err, r.oor)) = some (0b001, [false, false, false]) := by decide

/-- Rule R141: every lane is copied, CFG is sampled, STG is 0. -/
theorem test_hidx_samples :
    (workAfter (exec (.hidx [5, 2, 7]) (configured 3 2))).map (fun w => (w.x, w.ord, w.dim, w.stg)) =
      some ([5, 2, 7], 3, 2, .val) := by decide

/-- Section 2.2: `CFGWR 2, 3`, `HIDX 5, 2, 7` answers 010 with OOR 101. -/
theorem test_val_two_offenders :
    (responseAfter (exec .val (busy (work .val 2 3 [5, 2, 7])))).map (fun r => (r.err, r.oor)) =
      some (0b010, [true, false, true]) := by decide

/-- Section 2.2: a lane beyond DIM is ignored, and 3 passes at ORDER = 2. -/
theorem test_val_spare_lane :
    workAfter (exec .val (busy (work .val 2 2 [3, 3, 0xFFFFFFFF]))) =
      some (work .ewr 2 2 [3, 3, 0xFFFFFFFF]) := by decide

/-- Section 3: EWR maps (5,3) to (7,2) at ORDER = 3. -/
theorem test_ewr_two_rounds :
    (workAfter (exec .ewr (busy (work .ewr 3 2 [5, 3, 9])))).map (·.x) = some [7, 2, 9] := by decide

/-- Section 3: EWR maps (9,6,12) to (8,6,12) at ORDER = 4. -/
theorem test_ewr_three_lanes :
    (workAfter (exec .ewr (busy (work .ewr 4 3 [9, 6, 12])))).map (·.x) = some [8, 6, 12] := by decide

/-- Section 3: the second update uses the new `x[1]`. -/
theorem test_gray_running :
    (workAfter (exec .gray (busy (work .gray 3 3 [5, 2, 7])))).map (·.x) = some [5, 7, 0] := by decide

/-- Section 3: one update at DIM = 2. -/
theorem test_gray_two_lanes :
    (workAfter (exec .gray (busy (work .gray 3 2 [7, 2, 9])))).map (·.x) = some [7, 5, 9] := by decide

/-- Section 3: FCOR of (5,6) at ORDER = 3 is (7,4) with `t = 2`. -/
theorem test_fcor_two_hits :
    (workAfter (exec .fcor (busy (work .fcor 3 2 [5, 6, 9])))).map (fun w => (w.x, w.t)) =
      some ([7, 4, 9], 2) := by decide

/-- Section 3: bit 0 of the last lane is never tested. -/
theorem test_fcor_bit_zero :
    (workAfter (exec .fcor (busy (work .fcor 3 2 [0, 1, 9])))).map (fun w => (w.x, w.t)) =
      some ([0, 1, 9], 0) := by decide

/-- Section 3: PACK of (4,6) at ORDER = 3 is 52. -/
theorem test_pack_two_lanes :
    responseAfter (exec .pack (busy (work .pack 3 2 [4, 6, 9]))) =
      some { idx := 52, err := 0, oor := [false, false, false] } := by decide

/-- Section 3: PACK of (5,7,0) at ORDER = 3 is 406. -/
theorem test_pack_three_lanes :
    responseAfter (exec .pack (busy (work .pack 3 3 [5, 7, 0]))) =
      some { idx := 406, err := 0, oor := [false, false, false] } := by decide

/-- Section 3: the point (2,5) at ORDER = 3 has index 29. -/
theorem test_hilbert_index : hilbertIndex 3 2 [2, 5, 0] = 29 := by decide

/-! ## Witnesses: a state and operands that meet the hypotheses of each statement -/

theorem witness_DecodeInvertsEncode :
    3 ≤ 3 ∧ 3 ≤ 63 ∧ (Instr.hidx [1, 2, 0xFFFFFFFF]).wf 3 = true ∧ (Instr.cfgwr 63 63).wf 3 = true ∧
    Instr.pack.wf 63 = true ∧ (Instr.hidx (List.replicate 63 0xFFFFFFFF)).wf 63 = true := by decide

theorem witness_EveryRequestWordIsACommand :
    2 ^ 96 - 1 < 2 ^ (1 + 32 * 3) ∧ (2 ^ 96 - 1).testBit (32 * 3) = false ∧
    2 ^ 97 - 1 < 2 ^ (1 + 32 * 3) ∧ (2 ^ 97 - 1).testBit (32 * 3) = true := by decide

/-- A request for `HIDX 5, 2, 7`. -/
def aRequest : Request := { op := 0, data := [5, 2, 7] }

/-- There is always room for a first transaction. -/
theorem room : (0 : Nat) < Config.params.depth := Nat.succ_pos _

theorem witness_StepRunsTheDecodedOperation_accept :
    let s := { State.reset with sched := [.accept, .deliver], reqs := [aRequest] }
    s.rst = false ∧ s.inflight.length < Config.params.depth ∧ s.sched = .accept :: [.deliver] ∧
      s.reqs = aRequest :: [] ∧ decodeRequest Config.dmax aRequest = .ok (.hidx [5, 2, 7]) :=
  ⟨rfl, room, rfl, rfl, rfl⟩

theorem witness_StepRunsTheDecodedOperation_advance :
    let s := { busy (work .pack 1 2 [1, 0, 0]) with sched := [.advance 0] }
    s.rst = false ∧ s.sched = .advance 0 :: [] ∧ s.inflight[0]? = some (.hidx (work .pack 1 2 [1, 0, 0]) none) ∧
      decodeStage (work .pack 1 2 [1, 0, 0]).stg.code = .ok .pack :=
  ⟨rfl, rfl, rfl, rfl⟩

theorem witness_StepRunsTheDecodedOperation_own_accept :
    let s := { State.reset with reqs := [aRequest] }
    s.rst = false ∧ s.sched = [] ∧ s.inflight = [] ∧ s.reqs = aRequest :: [] ∧
      decodeRequest Config.dmax aRequest = .ok (.hidx [5, 2, 7]) :=
  ⟨rfl, rfl, rfl, rfl, rfl⟩

theorem witness_StepRunsTheDecodedOperation_own_advance :
    let s := busy (work .val 1 2 [1, 0, 0])
    s.rst = false ∧ s.sched = [] ∧ s.inflight = .hidx (work .val 1 2 [1, 0, 0]) none :: [] ∧
      decodeStage (work .val 1 2 [1, 0, 0]).stg.code = .ok .val :=
  ⟨rfl, rfl, rfl, rfl⟩

theorem witness_PlacedWordIsRunNext :
    decodeTableWord 104 (2 ^ 97 - 1) = some (.cfgwr 63 63) ∧ decodeTableWord 8 4 = some .pack ∧
      stageOf .pack = some .pack ∧ stageOf (.cfgwr 63 63) = none := by decide

/-- The smallest valid configuration, the largest ORDER, the largest product, and the largest DIM. -/
theorem witness_ConfigurationCheckIsExact :
    ValidConfig 3 1 2 ∧ ValidConfig 3 31 2 ∧ ValidConfig 3 21 3 ∧ ValidConfig 63 1 63 := by decide

theorem witness_HidxSamplesConfigurationAndLanes :
    ValidConfig Config.dmax (configured 21 3).cfgOrder (configured 21 3).cfgDim ∧
    ValidConfig Config.dmax (configured 1 2).cfgOrder (configured 1 2).cfgDim := by decide

theorem witness_HidxReportsAnInvalidConfiguration :
    (¬ ValidConfig Config.dmax State.reset.cfgOrder State.reset.cfgDim) ∧
    (¬ ValidConfig Config.dmax (configured 32 2).cfgOrder (configured 32 2).cfgDim) ∧
    stageOf .gray = some .gray ∧ ∃ t, exec .gray (busy (work .gray 1 2 [1, 0, 0])) = .next t :=
  ⟨by decide, by decide, rfl, _, rfl⟩

/-- The largest value that passes at ORDER = 2, and one past it. -/
theorem witness_ValExaminesEveryLane :
    AtStage (busy (work .val 2 2 [3, 3, 9])) .val (work .val 2 2 [3, 3, 9]) ∧
    ValidConfig (work .val 2 2 [3, 3, 9]).x.length 2 2 ∧
    (work .val 2 2 [3, 3, 9]).oor.length = (work .val 2 2 [3, 3, 9]).x.length ∧
    ValidPoint 2 2 [3, 3, 9] ∧
    AtStage (busy (work .val 2 2 [0, 4, 9])) .val (work .val 2 2 [0, 4, 9]) ∧ ¬ ValidPoint 2 2 [0, 4, 9] := by
  decide

theorem witness_EwrIsItsRoundsOfVisits :
    AtStage (busy (work .ewr 31 2 [0x7FFFFFFF, 0, 9])) .ewr (work .ewr 31 2 [0x7FFFFFFF, 0, 9]) ∧
    InDomain (work .ewr 31 2 [0x7FFFFFFF, 0, 9]) := by decide

/-- A working copy whose round mask is bit `k`. -/
def masked (k : Nat) : Work :=
  { work .ewr 31 2 [1, 2, 3] with q := BitVec.ofNat 32 (2 ^ k), p := BitVec.ofNat 32 (2 ^ k) - 1 }

theorem witness_EwrChangesOnlyLowBits :
    (0 < 32 ∧ (masked 0).q = BitVec.ofNat 32 (2 ^ 0) ∧ 0 ≤ 0) ∧
    (31 < 32 ∧ (masked 31).q = BitVec.ofNat 32 (2 ^ 31) ∧ 31 ≤ 31) ∧
    InDomain (work .ewr 1 2 [1, 1, 9]) ∧ InDomain (work .ewr 21 3 [0x1FFFFF, 0, 1]) := by decide

theorem witness_EwrIsOneToOneOntoValidPoints :
    (31 < 32 ∧ (masked 31).q = BitVec.ofNat 32 (2 ^ 31) ∧ (masked 31).p = (masked 31).q - 1 ∧
      2 < (masked 31).x.length) ∧
    InDomain (work .ewr 2 2 [3, 0, 9]) ∧
    (ewr (work .ewr 2 2 [3, 0, 9])).x = (ewr (work .val 2 2 [3, 0, 9])).x := by decide

theorem witness_EwrInFinerSteps :
    InDomain (work .ewr 3 2 [5, 3, 9]) ∧ 0 < (3 - 1) * 2 ∧ 3 < (3 - 1) * 2 := by decide

theorem witness_GrayIsTheRunningXor :
    AtStage (busy (work .gray 2 3 [3, 0, 3])) .gray (work .gray 2 3 [3, 0, 3]) ∧
    InDomain (work .gray 2 3 [3, 0, 3]) := by decide

theorem witness_FcorFoldsTheLastCoordinate :
    AtStage (busy (work .fcor 3 2 [5, 6, 9])) .fcor (work .fcor 3 2 [5, 6, 9]) ∧
    InDomain (work .fcor 3 2 [5, 6, 9]) := by decide

theorem witness_PackPlacesEveryBit :
    AtStage (busy (work .pack 3 3 [5, 7, 0])) .pack (work .pack 3 3 [5, 7, 0]) ∧
    InDomain (work .pack 3 3 [5, 7, 0]) := by decide

theorem witness_OrderOneLeavesCoordinates :
    (AtStage (busy (work .ewr 1 3 [1, 0, 1])) .ewr (work .ewr 1 3 [1, 0, 1]) ∧
      InDomain (work .ewr 1 3 [1, 0, 1])) ∧
    (AtStage (busy (work .fcor 1 3 [1, 0, 1])) .fcor (work .fcor 1 3 [1, 0, 1]) ∧
      InDomain (work .fcor 1 3 [1, 0, 1])) ∧
    (work .ewr 1 3 [1, 0, 1]).ord.toNat = 1 ∧
    (AtStage (busy (work .fcor 2 3 [1, 0, 2])) .fcor (work .fcor 2 3 [1, 0, 2]) ∧
      InDomain (work .fcor 2 3 [1, 0, 2]) ∧ (work .fcor 2 3 [1, 0, 2]).ord.toNat = 2) := by decide

/-- No transaction; another stage; an invalid configuration; an invalid point. -/
theorem witness_StagesAreRefusedOutOfPlace :
    State.reset.inflight[State.reset.cur]? = none ∧
    (AtStage (busy (work .val 1 2 [1, 1, 0])) .val (work .val 1 2 [1, 1, 0]) ∧ Stage.val ≠ Stage.pack) ∧
    (AtStage (busy (work .pack 32 2 [1, 1, 0])) .pack (work .pack 32 2 [1, 1, 0]) ∧ ¬ ValidConfig 3 32 2) ∧
    (AtStage (busy (work .pack 1 2 [2, 1, 0])) .pack (work .pack 1 2 [2, 1, 0]) ∧
      ¬ InDomain (work .pack 1 2 [2, 1, 0])) := by decide

/-- Every stage operation completes somewhere: at (0,1), ORDER = 1, DIM = 2. -/
theorem witness_StageFrame :
    (∃ t, exec .val (busy (work .val 1 2 [0, 1, 7])) = .next t) ∧
    (∃ t, exec .ewr (busy (work .ewr 1 2 [0, 1, 7])) = .next t) ∧
    (∃ t, exec .gray (busy (work .gray 1 2 [0, 1, 7])) = .next t) ∧
    (∃ t, exec .fcor (busy (work .fcor 1 2 [0, 1, 7])) = .next t) ∧
    (∃ t, exec .pack (busy (work .pack 1 2 [0, 1, 7])) = .next t) :=
  ⟨⟨_, rfl⟩, ⟨_, rfl⟩, ⟨_, rfl⟩, ⟨_, rfl⟩, ⟨_, rfl⟩⟩

/-- The other block has another configuration and another transaction in front. -/
theorem witness_StageReadsOnlyItsWorkingCopy :
    let s := busy (work .gray 1 2 [0, 1, 7])
    let s' := { configured 5 5 with
      inflight := [.hidx (work .val 2 2 [1, 1, 1]) none, .hidx (work .gray 1 2 [0, 1, 7]) none], cur := 1 }
    stageOf .gray = some .gray ∧ s.inflight[s.cur]? = s'.inflight[s'.cur]? ∧ s.draws = s'.draws ∧
      ∃ t, exec .gray s = .next t :=
  ⟨rfl, rfl, rfl, _, rfl⟩

/-- A response of a HIDX. -/
def aResponse : Response := { idx := 52, err := 0, oor := [false, false, false] }

theorem witness_OldestResponseIsDelivered :
    let t := Txn.cfgwr aResponse
    let s := { State.reset with sched := [.deliver], inflight := [t] }
    let s' := { busy (work .val 1 2 [0, 1, 7]) with sched := [.deliver] }
    (s.rst = false ∧ s.sched = .deliver :: [] ∧ s.inflight = t :: [] ∧ t.response = some aResponse) ∧
    (s'.rst = false ∧ s'.sched = .deliver :: [] ∧
      ∀ x rest, s'.inflight = x :: rest → x.response = none) := by
  refine ⟨⟨rfl, rfl, rfl, rfl⟩, rfl, rfl, fun x rest h => ?_⟩
  cases h
  rfl

/-- Nothing offered; a full block; `rst` asserted. -/
theorem witness_UnacceptedRequestHasNoEffect :
    State.reset.reqs = [] ∧
    Config.params.depth ≤ (List.replicate Config.params.depth (Txn.cfgwr aResponse)).length ∧
    State.reset.assertRst.rst = true :=
  ⟨rfl, by simp, rfl⟩

theorem witness_ResetLeavesTheBlockUnconfigured :
    State.reset.cfgOrder = 0 ∧ State.reset.cfgDim = 0 := by decide

theorem witness_AssertedResetDiscardsEverything :
    let s := { busy (work .val 1 2 [0, 1, 7]) with sched := [.rst true] }
    let s' := { State.reset.assertRst with sched := [.accept] }
    s.sched = .rst true :: [] ∧ (s'.rst = true ∧ s'.sched = .accept :: [] ∧
      ∀ level, Choice.accept ≠ .rst level) ∧ { s' with sched := [.rst false] }.sched = .rst false :: [] :=
  ⟨rfl, ⟨rfl, rfl, nofun⟩, rfl⟩

/-- An asserted reset and an accepted CFGWR that change CFG. -/
theorem witness_OnlyCfgwrAndResetChangeCfg :
    (∃ t, step { configured 1 2 with sched := [.rst true] } = .next t ∧ t.cfgOrder ≠ (configured 1 2).cfgOrder) ∧
    (∃ t, step { State.reset with reqs := [{ op := 1, data := [0x201, 0, 0] }] } = .next t ∧
      t.cfgDim ≠ State.reset.cfgDim) :=
  ⟨⟨_, rfl, by decide⟩, ⟨_, rfl, by decide⟩⟩

/-- The invariant of a block with one transaction at VAL, one request offered and one response delivered. -/
theorem inv_busy : Inv Config.params
    { busy (work .val 1 2 [0, 1, 7]) with reqs := [aRequest], delivered := [aResponse] } where
  room := room
  txns := by
    intro t ht
    rw [List.mem_singleton.1 ht]
    show Work.Live 3 _
    decide
  reqs := by
    intro r hr
    rw [List.mem_singleton.1 hr]
    rfl
  delivered := by
    intro r hr
    rw [List.mem_singleton.1 hr]
    show Response.Sound 3 _
    decide
  inReset := nofun

/-- The state of `inv_busy`, after which a step runs VAL. -/
theorem witness_EveryStepKeepsTheInvariant :
    let s := { busy (work .val 1 2 [0, 1, 7]) with reqs := [aRequest], delivered := [aResponse] }
    Inv Config.params s ∧ ∃ t, step s = .next t :=
  ⟨inv_busy, _, rfl⟩

theorem witness_NoBlockEverStops :
    Inv Config.params
      { busy (work .val 1 2 [0, 1, 7]) with reqs := [aRequest], delivered := [aResponse] } := inv_busy

theorem witness_ResponsesAreFinalAndCounted :
    let s := { busy (work .val 1 2 [0, 1, 7]) with delivered := [aResponse] }
    (∃ t, step s = .next t) ∧ nextChoice s ≠ some (.rst true) ∧
      (responseLog s)[0]? = some (some aResponse) :=
  ⟨⟨_, rfl⟩, by decide, rfl⟩

theorem witness_EveryStepKeepsTheAnswers :
    let s := { busy (work .val 1 2 [0, 1, 7]) with reqs := [aRequest], delivered := [aResponse] }
    Inv Config.params s ∧ (∃ t, step s = .next t) ∧ nextChoice s ≠ some (.rst true) :=
  ⟨inv_busy, ⟨_, rfl⟩, by decide⟩

/-- The invariant of a fresh block that is offered one HIDX, for a block with room for two. -/
theorem inv_offered (sch : List Choice) :
    Inv { dmax := 3, depth := 2 } { State.reset with reqs := [aRequest], sched := sch } where
  room := Nat.zero_le _
  txns := nofun
  reqs := by
    intro r hr
    rw [List.mem_singleton.1 hr]
    rfl
  delivered := nofun
  inReset := nofun

theorem witness_AnyScheduleServesRequestsInOrder :
    let c : Config.Params := { dmax := 3, depth := 2 }
    let s := { State.reset with reqs := [aRequest], sched := [.deliver, .accept] }
    c.wf ∧ Inv c s ∧ s.inflight = [] ∧ (∀ level, Choice.rst level ∉ s.sched) ∧
      ∃ t, Host.Core.run (blockCore c) 2 s = .next t :=
  ⟨by decide, inv_offered _, rfl, by decide, _, rfl⟩

theorem witness_EveryRequestIsAnswered :
    let c : Config.Params := { dmax := 3, depth := 2 }
    let s := { State.reset with reqs := [aRequest] }
    c.wf ∧ Inv c s ∧ s.rst = false ∧ s.sched = [] :=
  ⟨by decide, inv_offered [], rfl, rfl⟩

/-- `HILBERT_INDEX (5, 3), 3, 2`. -/
theorem witness_PseudoInstructionAnswersThePoint :
    let c : Config.Params := { dmax := 3, depth := 1 }
    let s := { State.reset with reqs := Asm.hilbertRequests 3 [5, 3] 3 2 }
    c.wf ∧ Inv c s ∧ s.rst = false ∧ s.sched = [] ∧ s.inflight = [] ∧ [5, 3].length ≤ c.dmax ∧
      s.reqs = Asm.hilbertRequests c.dmax [5, 3] 3 2 :=
  ⟨by decide, ⟨by decide, nofun, by decide, nofun, nofun⟩, rfl, rfl, rfl, by decide, rfl⟩

theorem witness_ErrorVectorsAreTheFive :
    [4, 0, 9].length = 3 ∧ (hidxAnswer 3 2 2 [4, 0, 9]).err = 2#3 ∧ (hidxAnswer 3 2 2 [3, 0, 9]).err = 0#3 ∧
    (hidxAnswer 3 0 0 [3, 0, 9]).err = 5#3 := by decide

theorem witness_SpareLanesHaveNoEffect :
    ∀ i < (2 : BitVec 6).toNat, laneAt [5, 3, 0] i = laneAt [5, 3, 0xFFFFFFFF] i := by decide

theorem witness_HilbertIndexIsInRange :
    ValidConfig [0x1FFFFF, 0x1FFFFF, 0x1FFFFF].length 21 3 ∧
    ValidPoint 21 3 [0x1FFFFF, 0x1FFFFF, 0x1FFFFF] := by decide

theorem witness_HilbertIndexIsInjective :
    ValidConfig [2, 5, 0].length 3 2 ∧ [2, 5, 0].length = [2, 5, 7].length ∧
    ValidPoint 3 2 [2, 5, 0] ∧ ValidPoint 3 2 [2, 5, 7] ∧
    hilbertIndex 3 2 [2, 5, 0] = hilbertIndex 3 2 [2, 5, 7] := by decide

theorem witness_HilbertIndexIsOntoTheRange :
    ValidConfig (BitVec.toNat (2 : BitVec 6)) 31 2 ∧ 2 ^ 62 - 1 < 2 ^ (31 * 2) := by decide

/-- `95_test_vectors.md` section 4.1: (0,1) has index 3 and (0,2) index 4, in different quadrants. -/
theorem witness_ConsecutiveIndicesAreNeighbours :
    ValidConfig [0, 1, 9].length 2 2 ∧ [0, 1, 9].length = [0, 2, 9].length ∧
    ValidPoint 2 2 [0, 1, 9] ∧ ValidPoint 2 2 [0, 2, 9] ∧
    (hilbertIndex 2 2 [0, 2, 9]).toNat = (hilbertIndex 2 2 [0, 1, 9]).toNat + 1 := by decide

end Sys2Proof.Tests
end

section
/-! The request decoder, bit by bit: where each bit of the number REQ goes, and which command it selects
(rules R73 to R76). -/

namespace Sys2Proof

open Machine

/-! ## REQ as a number, read as the two signals -/

/-- Every number reads as a request with as many lanes as the block (rule R72). -/
@[simp] theorem Request.length_data_ofNat (dmax w : Nat) : (Request.ofNat dmax w).data.length = dmax := by
  simp [Request.ofNat]

/-- `req_op` is bit `32*DMAX` of REQ (rule R73). -/
@[simp] theorem Request.getLsbD_op_ofNat (dmax w : Nat) :
    (Request.ofNat dmax w).op.getLsbD 0 = w.testBit (32 * dmax) := by
  rw [Request.ofNat, BitVec.getLsbD_ofNat, Nat.testBit_shiftRight]
  rfl

/-- Bit `b` of lane `i` is bit `32*i + b` of REQ (rule R75). -/
theorem Request.getLsbD_data_ofNat {dmax i b : Nat} (w : Nat) (hi : i < dmax) (hb : b < 32) :
    ((Request.ofNat dmax w).data.getD i 0).getLsbD b = w.testBit (32 * i + b) := by
  have hlane : (Request.ofNat dmax w).data.getD i 0 = BitVec.ofNat 32 (w >>> (32 * i)) := by
    simp [Request.ofNat, hi]
  rw [hlane, BitVec.getLsbD_ofNat, decide_eq_true hb, Bool.true_and, Nat.testBit_shiftRight]

/-! ## The fields of format C -/

/-- Bit `b` of ORDER is bit `b` of the first data word (rule R76). -/
theorem getLsbD_orderField {b : Nat} (data : List Word) (hb : b < 6) :
    (orderField data).getLsbD b = (data.getD 0 0).getLsbD b := by
  rw [orderField, BitVec.getLsbD_extractLsb', decide_eq_true hb, Bool.true_and, Nat.zero_add]

/-- Bit `b` of DIM is bit `8 + b` of the first data word (rule R76). -/
theorem getLsbD_dimField {b : Nat} (data : List Word) (hb : b < 6) :
    (dimField data).getLsbD b = (data.getD 0 0).getLsbD (8 + b) := by
  rw [dimField, BitVec.getLsbD_extractLsb', decide_eq_true hb, Bool.true_and]

/-! ## The command that a number selects -/

/-- A number of `1 + 32*DMAX` bits always decodes, to the command that `req_op` selects (rule R74). -/
theorem decodeReqWord_of_lt {dmax w : Nat} (hw : w < 2 ^ (1 + 32 * dmax)) :
    decodeReqWord dmax w = .ok (
      if w.testBit (32 * dmax) then
        .cfgwr (orderField (Request.ofNat dmax w).data) (dimField (Request.ofNat dmax w).data)
      else .hidx (Request.ofNat dmax w).data) := by
  obtain ⟨i, hdec⟩ := decodeRequest_of_length (Request.length_data_ofNat dmax w)
  have hop := Request.getLsbD_op_ofNat dmax w
  rw [decodeReqWord, if_neg (Nat.not_le.2 hw), hdec]
  obtain ⟨-, ⟨h0, rfl⟩ | ⟨h1, rfl⟩⟩ := decodeRequest_cases hdec
  · rw [h0] at hop
    simp [← hop]
  · rw [h1] at hop
    simp [← hop]

/-- Settles O3: by the bit of `req_op`, the command is one of the two, and each bit of its fields is traced back
through the first data word, or through its lane, to a bit of REQ. -/
theorem everyRequestWordIsACommand : Obligations.EveryRequestWordIsACommand := by
  intro dmax w hdmax hw
  have hdec := decodeReqWord_of_lt hw
  constructor
  · intro hop
    rw [hop] at hdec
    exact ⟨_, hdec, Request.length_data_ofNat dmax w, fun i hi b hb => Request.getLsbD_data_ofNat w hi hb⟩
  · intro hop
    rw [hop] at hdec
    have hfirst {b : Nat} (hb : b < 32) :
        ((Request.ofNat dmax w).data.getD 0 0).getLsbD b = w.testBit b := by
      simpa using Request.getLsbD_data_ofNat w (by omega : 0 < dmax) hb
    refine ⟨_, _, hdec, fun b hb => ⟨?_, ?_⟩⟩
    · rw [getLsbD_orderField _ hb, hfirst (by omega)]
    · rw [getLsbD_dimField _ hb, hfirst (by omega)]

end Sys2Proof
end

section
/-! The edges of the round schedule `while Q > 1`: no round of EWR or FCOR at ORDER = 1, and the one round of FCOR at
ORDER = 2 (rules R103, R121). -/

namespace Sys2Proof.Machine

/-- The rounds of EWR are those of bits ORDER-1 down to 1, so at ORDER = 1 there is none (rule R103). -/
theorem ewr_x_of_order_one {w : Work} (h : InDomain w) (ho : w.ord.toNat = 1) : (ewr w).x = w.x := by
  obtain ⟨hx, -⟩ := ewr_spec h.1.1 h.1.order_le
  rw [hx, ho, Nat.sub_self, roundsFrom]

/-- The second phase of FCOR with the term 0 writes back every lane it reads (rule R122). -/
@[simp] theorem fcorLanes_zero (dim : Nat) (x : List Word) : fcorLanes dim 0 x = x := by
  have hkeep (x : List Word) (i : Nat) : setLane x i (laneAt x i ^^^ 0) = x := by
    rw [BitVec.ofNat_eq_ofNat, BitVec.xor_zero, setLane_laneAt]
  simp only [fcorLanes, hkeep, List.foldl_fixed]

/-- The term folds the bits above bit `j` and below bit ORDER; at ORDER = 1 there are none (rules R121, R123). -/
theorem fcor_t_of_order_one {w : Work} (h : InDomain w) (ho : w.ord.toNat = 1) : (fcor w).t = 0 := by
  obtain ⟨ht, -⟩ := fcor_spec h
  refine BitVec.eq_of_getLsbD_eq fun j _ => ?_
  simp [ht, foldBit_high, ho]

theorem fcor_x_of_order_one {w : Work} (h : InDomain w) (ho : w.ord.toNat = 1) : (fcor w).x = w.x := by
  obtain ⟨-, hx, -⟩ := fcor_spec h
  rw [hx, fcor_t_of_order_one h ho, fcorLanes_zero]

/-- At ORDER = 2 the fold has one bit, bit 1, and it lands in bit 0 (rule R123). -/
theorem foldBit_two (y : Word) (j : Nat) : foldBit 2 y j = (decide (j = 0) && y.getLsbD 1) := by
  cases j with
  | zero => simp [foldBit, xorBits]
  | succ j => rw [foldBit_high _ (by omega)]; simp

/-- At ORDER = 2 the term is bit 1 of the last coordinate (rules R121, R123). -/
theorem fcor_t_of_order_two {w : Work} (h : InDomain w) (ho : w.ord.toNat = 2) :
    (fcor w).t = if (laneAt w.x (w.dim.toNat - 1)).getLsbD 1 then 1 else 0 := by
  obtain ⟨ht, -⟩ := fcor_spec h
  refine BitVec.eq_of_getLsbD_eq fun j _ => ?_
  rw [ht, ho, foldBit_two]
  cases (laneAt w.x (w.dim.toNat - 1)).getLsbD 1 with
  | false => simp
  | true => simp

/-- Settles O18: the two stages complete at their stage in the domain, and what they leave is read off from the
number of rounds, ORDER-1. -/
theorem orderOneLeavesCoordinates : Obligations.OrderOneLeavesCoordinates := by
  refine ⟨fun s w hs hd ho => ⟨ewr w, ?_, ewr_x_of_order_one hd ho, rfl⟩,
    fun s w hs hd ho => ⟨fcor w, ?_, fcor_x_of_order_one hd ho, fcor_t_of_order_one hd ho, rfl⟩,
    fun s w hs hd ho => ⟨fcor w, ?_, fcor_t_of_order_two hd ho, rfl⟩⟩
  · exact exec_stage_of (i := .ewr) rfl hs hd.1 fun _ => hd.2
  · exact exec_stage_of (i := .fcor) rfl hs hd.1 fun _ => hd.2
  · exact exec_stage_of (i := .fcor) rfl hs hd.1 fun _ => hd.2

end Sys2Proof.Machine
end

section
/-! Injectivity of the transform (rule R147): the digits of the curve determine the point, from the top bit position
down, because each round of EWR can be undone. -/

namespace Sys2Proof.Machine.Curve

/-- The top digit gives the top vector, since a running XOR can be undone. -/
theorem top_eq_of_pointDigit_eq {D n : Nat} {π : Bool} {x y : Nat → LaneBits} (hx : Narrow D x) (hy : Narrow D y)
    (h : ∀ i < D, pointDigit D n π x n i = pointDigit D n π y n i) : x n = y n := by
  simp only [pointDigit_top] at h
  funext i
  by_cases hi : i < D
  · exact runXor_inj h i hi
  · rw [hx n i (by omega), hy n i (by omega)]

/-- Points with one index have one vector at every bit position: the top digit gives the top vector, and that vector
says how the vectors below it were turned. -/
theorem eq_of_pointDigit_eq {D : Nat} (hD : 1 ≤ D) : ∀ (n : Nat) (π : Bool) (x y : Nat → LaneBits), Narrow D x →
    Narrow D y → (∀ k ≤ n, ∀ i < D, pointDigit D n π x k i = pointDigit D n π y k i) → ∀ k ≤ n, x k = y k := by
  intro n
  induction n with
  | zero =>
    intro π x y hx hy h k hk
    obtain rfl : k = 0 := by omega
    exact top_eq_of_pointDigit_eq hx hy (h 0 hk)
  | succ n ih =>
    intro π x y hx hy h k hk
    have htop : x (n + 1) = y (n + 1) := top_eq_of_pointDigit_eq hx hy (h (n + 1) le_rfl)
    obtain rfl | hk' : k = n + 1 ∨ k ≤ n := by omega
    · exact htop
    · have hturned := ih _ _ _ (hx.step (n := n) hD (x (n + 1))) (hy.step (n := n) hD (x (n + 1)))
        (fun k hk i hi => by
          have := h k (by omega) i hi
          rwa [pointDigit_below hk, pointDigit_below hk, ← htop] at this) k hk'
      simp only [if_pos hk'] at hturned
      exact turn_inj _ D hturned

/-- The bits below ORDER of the lanes below DIM are all there is of a valid point (rule R19). -/
theorem laneAt_eq_of_bitsOf_eq {ord dim : BitVec 6} {x y : List Word} (hx : ValidPoint ord dim x)
    (hy : ValidPoint ord dim y) (h : ∀ k < ord.toNat, bitsOf dim.toNat x k = bitsOf dim.toNat y k) {i : Nat}
    (hi : i < dim.toNat) : laneAt x i = laneAt y i := by
  refine BitVec.eq_of_getLsbD_eq fun b _ => ?_
  by_cases hb : b < ord.toNat
  · simpa only [bitsOf_of_lt _ _ hi] using congrFun (h b hb) i
  · rw [(toNat_lt_iff_bits _ _).1 (hx i hi) b (by omega), (toNat_lt_iff_bits _ _).1 (hy i hi) b (by omega)]

/-- Settles O38: equal indices have equal digits, so the points have equal lane bits. -/
theorem hilbertIndexIsInjective : Obligations.HilbertIndexIsInjective := by
  intro ord dim x y hvx hl hx hy heq i hi
  have hvy : ValidConfig y.length ord dim := hl ▸ hvx
  have hdigits : ∀ k ≤ ord.toNat - 1, ∀ i < dim.toNat,
      pointDigit dim.toNat (ord.toNat - 1) false (bitsOf dim.toNat x) k i =
        pointDigit dim.toNat (ord.toNat - 1) false (bitsOf dim.toNat y) k i := by
    intro k hk i hi
    have hk' : k < ord.toNat := by have := hvx.1; omega
    rw [← hilbertIndex_bit hvx hx hk' hi, ← hilbertIndex_bit hvy hy hk' hi, heq]
  have hbits := eq_of_pointDigit_eq (by omega) _ _ _ _ (bitsOf_narrow _ x) (bitsOf_narrow _ y) hdigits
  exact laneAt_eq_of_bitsOf_eq hx hy (fun k hk => hbits k (by omega)) hi

end Sys2Proof.Machine.Curve
end

section
/-! The configuration errors in the responses of the two host commands (rules R33, R143, R163). -/

namespace Sys2Proof.Machine

theorem ceBit_cfgErr_iff (dmax : Nat) (order dim : BitVec 6) :
    ceBit (cfgErr dmax order dim) = true ↔ order.toNat = 0 ∨ 64 ≤ dim.toNat * order.toNat := by
  rw [cfgErr, ceBit_errVec, cfgCE_iff]

theorem udBit_cfgErr_iff (dmax : Nat) (order dim : BitVec 6) :
    udBit (cfgErr dmax order dim) = true ↔ dim.toNat < 2 ∨ dmax < dim.toNat := by
  rw [cfgErr, udBit_errVec, cfgUD_iff]

/-- The configuration check never reports OOR (rule R143). -/
@[simp] theorem oorBit_cfgErr (dmax : Nat) (order dim : BitVec 6) : oorBit (cfgErr dmax order dim) = false :=
  oorBit_errVec _ _ _

/-- CFGWR as one next state: both fields written, one complete response last (rules R160, R161). -/
theorem exec_cfgwr (s : State) (order dim : BitVec 6) :
    exec (.cfgwr order dim) s = .next { s with
      cfgOrder := order, cfgDim := dim
      inflight := s.inflight ++ [.cfgwr (cfgwrResponse Config.dmax order dim s)]
      cur := s.inflight.length, draws := s.draws + 1 } := rfl

/-- HIDX under an invalid configuration as one next state (rule R143). -/
theorem exec_hidx_invalid {s : State} (lanes : List Word)
    (h : ¬ ValidConfig Config.dmax s.cfgOrder s.cfgDim) :
    exec (.hidx lanes) s = .next { s with
      inflight := s.inflight ++ [.hidx
        { newWork Config.dmax lanes s with err := cfgErr Config.dmax s.cfgOrder s.cfgDim, stg := .done }
        (some { idx := Config.unspec64 (s.draws + newWorkDraws)
                err := cfgErr Config.dmax s.cfgOrder s.cfgDim
                oor := noOor Config.dmax })]
      cur := s.inflight.length
      draws := s.draws + newWorkDraws + 1 } :=
  (execHidxAt_invalid (c := Config.params) lanes h).trans (congrArg _ (enter_raise ..))

/-- Settles O7: the response carries the ERR of the new pair, whose bits are the two checks. -/
theorem cfgwrAlwaysWritesAndReports : Obligations.CfgwrAlwaysWritesAndReports := fun s order dim =>
  ⟨_, _, exec_cfgwr s order dim, ceBit_cfgErr_iff _ _ _, udBit_cfgErr_iff _ _ _, oorBit_cfgErr _ _ _, rfl⟩

/-- Settles O9: the raised ERR is that of the sampled pair, not 0 as the pair is invalid; and a stage operation that
answers next ran on a working copy with a valid configuration. -/
theorem hidxReportsAnInvalidConfiguration : Obligations.HidxReportsAnInvalidConfiguration := by
  refine ⟨fun s lanes h => ?_, fun s t i st hi ht => ?_⟩
  · have herr : cfgErr Config.dmax s.cfgOrder s.cfgDim ≠ 0 := fun h0 => h ((cfgErr_eq_zero_iff _ _ _).1 h0)
    exact ⟨_, _, _, _, exec_hidx_invalid lanes h, rfl, rfl, herr, rfl, ceBit_cfgErr_iff _ _ _,
      udBit_cfgErr_iff _ _ _, oorBit_cfgErr _ _ _, rfl⟩
  · obtain ⟨w, hw, hc, -⟩ := exec_stage_next hi ht
    have hmax := hc.order_le
    obtain ⟨hord, hdim, hlanes, hprod⟩ := hc
    exact ⟨w, hw, hord, hmax, hdim, hlanes, by omega⟩

end Sys2Proof.Machine
end

section
/-! Encodings: a request survives the way through its number REQ, so decoding inverts encoding (rules R72 to R78); and
the worked encodings of the spec (rule R86). -/

namespace Sys2Proof

open Machine

/-! ## Through the number REQ -/

/-- Decoding REQ as a number is decoding the two signals (rule R73). -/
theorem decodeReqWord_toNat (r : Request) :
    decodeReqWord r.data.length r.toNat = decodeRequest r.data.length r := by
  rw [decodeReqWord, if_neg (Nat.not_le.2 r.toNat_lt), r.ofNat_toNat]

/-- Only at DMAX = 0 is a request as short as the number of a stage (log entry 17). -/
theorem isStageRow_request {dmax : Nat} (h : 3 ≤ dmax) : isStageRow (1 + 32 * dmax) = false := by
  simp only [isStageRow, decide_eq_false_iff_not]
  omega

/-- What decodes as signals decodes as the number of its table row, which has the row's width (rules R72, R73). -/
theorem request_roundTrip {dmax : Nat} {i : Instr} {r : Request} (hdmax : 3 ≤ dmax) (hr : encode dmax i = .request r)
    (hl : r.data.length = dmax) (hdec : decodeRequest dmax r = .ok i) :
    decode dmax (encode dmax i) = .ok i ∧ encodeWord dmax i < 2 ^ encodedBits dmax i ∧
      decodeWord dmax (encodedBits dmax i) (encodeWord dmax i) = .ok i := by
  have hword : encodeWord dmax i = r.toNat := by rw [encodeWord, hr]
  have hbits : encodedBits dmax i = 1 + 32 * dmax := by rw [encodedBits, hr]
  subst hl
  refine ⟨by rw [hr]; exact hdec, by rw [hword, hbits]; exact r.toNat_lt, ?_⟩
  rw [hword, hbits, decodeWord, isStageRow_request hdmax, if_neg Bool.false_ne_true, decodeReqWord_toNat, hdec]

/-- The same of a stage number, which has 3 bits (rules R26, R78). -/
theorem stage_roundTrip {dmax : Nat} {i : Instr} {n : BitVec 3} (hn : encode dmax i = .stage n)
    (hdec : decodeStage n = .ok i) :
    decode dmax (encode dmax i) = .ok i ∧ encodeWord dmax i < 2 ^ encodedBits dmax i ∧
      decodeWord dmax (encodedBits dmax i) (encodeWord dmax i) = .ok i := by
  have hword : encodeWord dmax i = n.toNat := by rw [encodeWord, hn]
  have hbits : encodedBits dmax i = 3 := by rw [encodedBits, hn]
  refine ⟨by rw [hn]; exact hdec, by rw [hword, hbits]; exact n.isLt, ?_⟩
  have hrow : decodeWord dmax 3 n.toNat = decodeStageWord n.toNat := rfl
  rw [hword, hbits, hrow, decodeStageWord, if_neg (Nat.not_le.2 n.isLt), BitVec.ofNat_toNat, BitVec.setWidth_eq, hdec]

/-- Settles O2: a request by `request_roundTrip`, where `req_op` and the fields of format C read back, and a stage number by
`stage_roundTrip`. -/
theorem decodeInvertsEncode : Obligations.DecodeInvertsEncode := by
  intro dmax i hmin _ hwf
  cases i with
  | hidx lanes =>
    have hl : lanes.length = dmax := by simpa [Instr.wf] using hwf
    exact request_roundTrip hmin rfl hl (by simp [decodeRequest, hl])
  | cfgwr order dim =>
    have hl : (cfgWord order dim :: List.replicate (dmax - 1) (0 : Word)).length = dmax := by
      rw [List.length_cons, List.length_replicate]
      omega
    exact request_roundTrip hmin rfl hl (by rw [decodeRequest, if_neg (not_not.2 hl)]; simp)
  | val => exact stage_roundTrip rfl rfl
  | ewr => exact stage_roundTrip rfl rfl
  | gray => exact stage_roundTrip rfl rfl
  | fcor => exact stage_roundTrip rfl rfl
  | pack => exact stage_roundTrip rfl rfl

/-! ## The worked encodings -/

/-- OORLANES and ERR stand above the 64 bits of IDX (rule R80). -/
theorem Response.flagsNat_eq (r : Response) : r.flagsNat = bitsToNat r.oor * 8 + r.err.toNat := by
  have hidx := r.idx.isLt
  rw [Response.flagsNat, Response.toNat]
  omega

/-- Settles O1: the requests by evaluation, and the flags of a response do not depend on its IDX. -/
theorem workedEncodingsOfTheSpec : Obligations.WorkedEncodingsOfTheSpec :=
  ⟨by decide, by decide, by decide, by decide, by decide, by decide, by decide, by decide, by decide,
    fun _ => Response.flagsNat_eq _⟩

end Sys2Proof
end

section
/-! What the next step is, said once for each choice (rules R26, R55, R71, R200): the rules by which the later proofs
run the block, and what follows from them at once. -/

namespace Sys2Proof.Machine

variable {c : Config.Params} {s : State}

/-! ## The step that a choice selects -/

/-- The head of the schedule is the next event (log entry 4). -/
theorem stepAt_of_sched {ch : Choice} {sch : List Choice} (h : s.sched = ch :: sch) :
    stepAt c s = perform c (execAt c) ch { s with sched := sch } := by
  simp [stepAt, stepWith, nextChoice, popChoice, h]

/-- With an empty schedule the model's own order selects it (log entry 4). -/
theorem stepAt_of_sched_nil {ch : Choice} (hs : s.sched = []) (h : nextChoice s = some ch) :
    stepAt c s = perform c (execAt c) ch s := by
  have hpop : popChoice s = s := by rw [popChoice, hs, List.tail_nil, ← hs]
  simp [stepAt, stepWith, h, hpop]

theorem nextChoice_idle {r : Request} {rest : List Request} (hs : s.sched = []) (hr : s.rst = false)
    (hi : s.inflight = []) (hq : s.reqs = r :: rest) : nextChoice s = some .accept := by
  simp [nextChoice, hs, hr, hi, hq]

theorem nextChoice_unfinished {x : Txn} {rest : List Txn} (hs : s.sched = []) (hr : s.rst = false)
    (hi : s.inflight = x :: rest) (hx : x.response = none) : nextChoice s = some (.advance 0) := by
  simp [nextChoice, hs, hr, hi, hx]

theorem nextChoice_finished {x : Txn} {r : Response} {rest : List Txn} (hs : s.sched = []) (hr : s.rst = false)
    (hi : s.inflight = x :: rest) (hx : x.response = some r) : nextChoice s = some .deliver := by
  simp [nextChoice, hs, hr, hi, hx]

/-! ## The event itself -/

theorem perform_accept {r : Request} {rest : List Request} {i : Instr} (hready : s.reqReady c = true)
    (hq : s.reqs = r :: rest) (hd : decodeRequest c.dmax r = .ok i) :
    perform c (execAt c) .accept s = execAt c i { s with reqs := rest } := by
  simp [perform, acceptNext, hready, hq, hd]

theorem perform_accept_blocked (h : s.reqs = [] ∨ s.reqReady c = false) :
    perform c (execAt c) .accept s = .next s := by
  rcases h with h | h
  · simp [perform, acceptNext, h]
  · simp [perform, acceptNext, h]

theorem perform_advance {k : Nat} {w : Work} {i : Instr} (hr : s.rst = false)
    (hw : s.inflight[k]? = some (.hidx w none)) (hd : decodeStage w.stg.code = .ok i) :
    perform c (execAt c) (.advance k) s = execAt c i { s with cur := k } := by
  simp [perform, advanceTxn, hr, hw, hd]

theorem perform_deliver (hr : s.rst = false) : perform c (execAt c) .deliver s = .next s.deliver := by
  simp [perform, hr]

/-- While `rst` is asserted nothing but `rst` changes anything (rules R200, R201). -/
theorem perform_inReset {ch : Choice} (hr : s.rst = true) (h : ∀ level, ch ≠ .rst level) :
    perform c (execAt c) ch s = .next s := by
  cases ch with
  | rst level => exact absurd rfl (h level)
  | accept => exact perform_accept_blocked (.inr (by simp [State.reqReady, hr]))
  | advance k => simp [perform, hr]
  | deliver => simp [perform, hr]

/-! ## Delivering -/

theorem deliver_of_complete {x : Txn} {rest : List Txn} {r : Response} (hi : s.inflight = x :: rest)
    (hx : x.response = some r) :
    s.deliver = { s with inflight := rest, delivered := s.delivered ++ [r] } := by
  simp [State.deliver, hi, hx]

theorem deliver_of_incomplete (h : ∀ x rest, s.inflight = x :: rest → x.response = none) : s.deliver = s := by
  obtain ⟨he, -⟩ | ⟨x, rest, r, hi, hx, -⟩ := deliver_cases s
  · exact he
  · exact nomatch (h x rest hi).symm.trans hx

/-! ## What a step runs -/

/-- Settles O4: each clause is the rule of its choice, read off from the schedule or from the model's own order. -/
theorem stepRunsTheDecodedOperation : Obligations.StepRunsTheDecodedOperation := by
  rw [Obligations.StepRunsTheDecodedOperation, step_eq_stepAt, exec_eq_execAt]
  refine ⟨fun s sch r rest i hr hroom hs hq hd => ?_, fun s sch k w i hr hs hw hd => ?_,
    fun s r rest i hr hs hi hq hd => ?_, fun s w rest i hr hs hi hd => ?_⟩
  · exact (stepAt_of_sched hs).trans (perform_accept (s := { s with sched := sch }) (reqReady_iff.2 ⟨hr, hroom⟩) hq hd)
  · exact (stepAt_of_sched hs).trans (perform_advance (s := { s with sched := sch }) hr hw hd)
  · have hroom : s.inflight.length < Config.params.depth := by rw [hi]; exact params_wf.2.2
    rw [stepAt_of_sched_nil hs (nextChoice_idle hs hr hi hq), perform_accept (reqReady_iff.2 ⟨hr, hroom⟩) hq hd]
  · rw [stepAt_of_sched_nil hs (nextChoice_unfinished hs hr hi rfl), perform_advance hr (by rw [hi]; rfl) hd]

/-- Settles O22: a delivery by its two cases. -/
theorem oldestResponseIsDelivered : Obligations.OldestResponseIsDelivered := by
  intro s sch hr hs
  have hstep : step s = .next { s with sched := sch }.deliver :=
    step_eq_stepAt ▸ (stepAt_of_sched hs).trans (perform_deliver hr)
  rw [hstep]
  exact ⟨fun x rest r hi hx => congrArg _ (deliver_of_complete hi hx), fun h => congrArg _ (deliver_of_incomplete h)⟩

/-- Settles O23: without a request, without room or in reset there is nothing to accept. -/
theorem unacceptedRequestHasNoEffect : Obligations.UnacceptedRequestHasNoEffect := by
  intro s sch hs h
  rw [step_eq_stepAt, stepAt_of_sched hs]
  refine perform_accept_blocked (h.imp_right fun h => ?_)
  rw [← Bool.not_eq_true, reqReady_iff]
  rintro ⟨hr, hroom⟩
  rcases h with hfull | hrst
  · exact Nat.not_lt.2 hfull hroom
  · exact nomatch hr.symm.trans hrst

/-- Settles O25: the two levels of `rst`, and what happens in between. -/
theorem assertedResetDiscardsEverything : Obligations.AssertedResetDiscardsEverything := by
  rw [Obligations.AssertedResetDiscardsEverything, step_eq_stepAt]
  refine ⟨fun s sch hs => ?_, fun s sch ch hr hs h => ?_, fun s sch hs => ?_⟩
  · rw [stepAt_of_sched hs]
    rfl
  · exact (stepAt_of_sched hs).trans (perform_inReset hr h)
  · rw [stepAt_of_sched hs]
    rfl

/-! ## Placed words -/

/-- A stage number that decodes names a stage operation (rule R78). -/
theorem decodeStageWord_stageOf {w : Nat} {i : Instr} (h : decodeStageWord w = .ok i) :
    ∃ st, stageOf i = some st := by
  unfold decodeStageWord decodeStage at h
  split_ifs at h <;> cases h <;> exact ⟨_, rfl⟩

theorem decodeReqWord_inv {dmax w : Nat} {i : Instr} (h : decodeReqWord dmax w = .ok i) :
    decodeRequest dmax (Request.ofNat dmax w) = .ok i := by
  unfold decodeReqWord at h
  split at h
  · cases h
  · exact h

theorem decodeTableWord_inv {nbits w : Nat} {i : Instr} (h : decodeTableWord nbits w = some i) :
    (isStageRow nbits = true ∧ decodeStageWord w = .ok i) ∨
      (isStageRow nbits = false ∧ decodeReqWord Config.dmax w = .ok i) := by
  have hok : ∀ {e : Except DecodeError Instr}, e.toOption = some i → e = .ok i := by
    rintro (_ | _) ⟨⟩
    rfl
  have h' := hok h
  unfold decodeWord at h'
  split at h'
  · next hrow => exact .inl ⟨hrow, h'⟩
  · next hrow => exact .inr ⟨by simpa using hrow, h'⟩

/-- The placed working copy is in the valid domain (log entry 8). -/
theorem placedWork_inDomain (s : State) (st : Stage) : InDomain (placedWork Config.params s st) := by
  show ValidConfig 3 1 2 ∧ ValidPoint 1 2 [0, 0, 0]
  decide

/-- Placing a request leaves room for it (log entry 8). -/
theorem placeRequest_reqReady (hc : 1 ≤ c.depth) (s : State) (r : Request) :
    (placeRequest c s r).reqReady c = true := by
  refine reqReady_iff.2 ⟨rfl, ?_⟩
  simp only [placeRequest]
  split
  · rw [List.length_take]
    omega
  · next hfull => simpa [State.full] using hfull

/-- The transaction put in flight stands behind all others (log entry 8). -/
theorem placeStage_last (c : Config.Params) (s : State) (st : Stage) :
    (placeStage c s st).inflight[s.inflight.length]? = some (.hidx (placedWork c s st) none) := by
  simp [placeStage]

/-- A placed stage is run by the next step. -/
theorem stepAt_placeStage {st : Stage} {i : Instr} (h : stageOf i = some st) :
    stepAt c (placeStage c s st) =
      execAt c i { placeStage c s st with sched := s.sched, cur := s.inflight.length } :=
  (stepAt_of_sched rfl).trans (perform_advance (s := { placeStage c s st with sched := s.sched }) rfl
    (placeStage_last c s st) (decodeStage_of_stageOf h))

/-- A placed request is accepted by the next step. -/
theorem stepAt_placeRequest (hc : 1 ≤ c.depth) {r : Request} {i : Instr} (h : decodeRequest c.dmax r = .ok i) :
    stepAt c (placeRequest c s r) = execAt c i { placeRequest c s r with sched := s.sched, reqs := s.reqs } :=
  (stepAt_of_sched rfl).trans (perform_accept (s := { placeRequest c s r with sched := s.sched })
    (placeRequest_reqReady hc s r) rfl h)

/-- Settles O5: a table word is a stage number or a request, and the placed one is run by the rule of its kind. -/
theorem placedWordIsRunNext : Obligations.PlacedWordIsRunNext := by
  intro s nbits w i h
  rw [step_eq_stepAt, exec_eq_execAt]
  obtain ⟨hrow, hdec⟩ | ⟨hrow, hdec⟩ := decodeTableWord_inv h
  · obtain ⟨st, hst⟩ := decodeStageWord_stageOf hdec
    have hplace : s.withFetchWord nbits w = placeStage Config.params s st := by
      simp [State.withFetchWord, placeWord, hrow, hdec, Except.toOption, hst]
    rw [hplace]
    refine ⟨_, stepAt_placeStage hst, rfl, rfl, rfl, rfl, rfl, fun st' hst' => ?_⟩
    obtain rfl : st = st' := Option.some.inj (hst.symm.trans hst')
    exact ⟨_, ⟨placeStage_last _ s st, rfl⟩, placedWork_inDomain s st⟩
  · have hreq := decodeReqWord_inv hdec
    have hplace : s.withFetchWord nbits w = placeRequest Config.params s (Request.ofNat Config.dmax w) := by
      simp [State.withFetchWord, placeWord, hrow, Config.params]
    rw [hplace]
    refine ⟨_, stepAt_placeRequest params_wf.2.2 hreq, rfl, rfl, rfl, rfl, rfl, fun st hst => ?_⟩
    obtain ⟨-, ⟨-, rfl⟩ | ⟨-, rfl⟩⟩ := decodeRequest_cases hreq
    · cases hst
    · cases hst

end Sys2Proof.Machine
end

section
/-! What a step can make of the block, said once (`StepEvent`), and what follows from it: the block never stops and keeps
its invariant, CFG changes only as rule R202 says, responses are final and counted, and a transaction keeps its
answer (rules R57, R82, R141, R174, R207). -/

namespace Sys2Proof.Machine

/-! ## The transaction a stage operation leaves -/

/-- What the transaction whose turn it is becomes, when `n` free values have been drawn. -/
def stageTxn (i : Instr) (w : Work) (n : Nat) : Txn :=
  match i with
  | .hidx _ => .hidx w none
  | .cfgwr _ _ => .hidx w none
  | .val =>
    if (oorMask w).any id then
      .hidx { w with oor := oorMask w, err := errOOR, stg := .done }
        (some { idx := Config.unspec64 n, err := errOOR, oor := oorMask w })
    else .hidx { w with oor := oorMask w, stg := .ewr } none
  | .ewr => .hidx (ewr w) none
  | .gray => .hidx (gray w) none
  | .fcor => .hidx (fcor w) none
  | .pack => .hidx { pack w with stg := .done } (some (finalResponse (pack w)))

theorem stageEffect_inflight {i : Instr} {st : Stage} (hi : stageOf i = some st) (w : Work) (s : State) :
    (stageEffect i w s).inflight = s.inflight.set s.cur (stageTxn i w s.draws) := by
  cases i with
  | hidx lanes => cases hi
  | cfgwr order dim => cases hi
  | val =>
    by_cases h : (oorMask w).any id = true
    · rw [stageEffect, valStage_report h, stageTxn, if_pos h]
      rfl
    · rw [stageEffect, valStage_pass (by simpa using h), stageTxn, if_neg h]
      rfl
  | ewr => rfl
  | gray => rfl
  | fcor => rfl
  | pack => rfl

/-- From a live working copy it is sound and on its way to the same answer (rule R145). -/
theorem stageTxn_sound {i : Instr} {w : Work} {dmax : Nat} (hi : stageOf i = some w.stg) (hl : w.Live dmax) (n : Nat) :
    (stageTxn i w n).Sound dmax ∧ (stageTxn i w n).answer = w.answer := by
  obtain ⟨x, hx, hsound⟩ := stageEffect_txn hi w { State.reset with inflight := [.hidx w none], draws := n }
  obtain rfl : x = stageTxn i w n := by simpa [State.reset] using hx.symm.trans (stageEffect_inflight hi w _)
  exact hsound dmax hl rfl

/-- Every stage but DONE has its operation (rules R26, R78). -/
theorem exists_stageOf {st : Stage} (h : st ≠ .done) : ∃ i, stageOf i = some st := by
  cases st with
  | val => exact ⟨.val, rfl⟩
  | ewr => exact ⟨.ewr, rfl⟩
  | gray => exact ⟨.gray, rfl⟩
  | fcor => exact ⟨.fcor, rfl⟩
  | pack => exact ⟨.pack, rfl⟩
  | done => exact absurd rfl h

/-- The stage operations do not depend on the parameters (rule R11). -/
theorem execAt_stage {c : Config.Params} {i : Instr} {st : Stage} (hi : stageOf i = some st) (s : State) :
    execAt c i s = exec i s := by
  cases i with
  | hidx lanes => cases hi
  | cfgwr order dim => cases hi
  | val => rfl
  | ewr => rfl
  | gray => rfl
  | fcor => rfl
  | pack => rfl

/-- A live transaction completes the operation of its stage (rules R143, R145). -/
theorem execAt_live {c : Config.Params} {s : State} {w : Work} {i : Instr} {dmax : Nat}
    (hw : s.inflight[s.cur]? = some (.hidx w none)) (hl : w.Live dmax) (hi : stageOf i = some w.stg) :
    execAt c i s = .next (stageEffect i w s) := by
  obtain ⟨hlen, -, -, -, hc, hp⟩ := hl
  rw [execAt_stage hi]
  exact exec_stage_of hi ⟨hw, rfl⟩ (hlen ▸ hc) hp

/-! ## One step, case by case -/

/-- `t` differs from `s` in the transactions in flight and the model's own fields at most, one choice having been
read. -/
structure SameOutside (s t : State) : Prop where
  cfgOrder : t.cfgOrder = s.cfgOrder
  cfgDim : t.cfgDim = s.cfgDim
  rst : t.rst = s.rst
  reqs : t.reqs = s.reqs
  delivered : t.delivered = s.delivered
  sched : t.sched = s.sched.tail

/-- CFG after an accepted command: a CFGWR leaves its fields, a HIDX changes nothing (rules R160, R202). -/
def CfgAfter (i : Instr) (s t : State) : Prop :=
  (∃ o d, i = .cfgwr o d ∧ t.cfgOrder = o ∧ t.cfgDim = d) ∨
    (∃ l, i = .hidx l ∧ t.cfgOrder = s.cfgOrder ∧ t.cfgDim = s.cfgDim)

/-- What a step of the block with parameters `c` can be. -/
inductive StepEvent (c : Config.Params) (s t : State) : Prop
  /-- Nothing, or an event that is not possible (log entry 4). -/
  | quiet (hsame : SameOutside s t) (hin : t.inflight = s.inflight)
  | reset (hch : nextChoice s = some (.rst true)) (ht : t = (popChoice s).assertRst)
  | release (ht : t = (popChoice s).releaseRst)
  | deliver {x : Txn} {rest : List Txn} {r : Response} (hs : s.inflight = x :: rest) (hx : x.response = some r)
      (ht : t = { popChoice s with inflight := rest, delivered := s.delivered ++ [r] })
  | accept {r : Request} {rest : List Request} {i : Instr} {x : Txn} (hch : nextChoice s = some .accept)
      (hready : s.reqReady c = true) (hq : s.reqs = r :: rest) (hdec : decodeRequest c.dmax r = .ok i)
      (hin : t.inflight = s.inflight ++ [x]) (hx : x.Sound c.dmax) (ha : acceptAnswer c.dmax s i = some x.answer)
      (hreqs : t.reqs = rest) (hdel : t.delivered = s.delivered) (hsched : t.sched = s.sched.tail)
      (hrst : t.rst = s.rst) (hcfg : CfgAfter i s t)
  | advance {k : Nat} {w : Work} {i : Instr} (hrst : s.rst = false) (hw : s.inflight[k]? = some (.hidx w none))
      (hi : stageOf i = some w.stg) (hsame : SameOutside s t)
      (hin : t.inflight = s.inflight.set k (stageTxn i w s.draws))

/-- The frame of a completed stage operation, as seen from before its choice was read (rule R141). -/
theorem stageEffect_sameOutside (i : Instr) (w : Work) (s : State) (k : Nat) :
    SameOutside s (stageEffect i w { popChoice s with cur := k }) := by
  obtain ⟨h1, h2, h3, h4, h5, h6, -⟩ := stageEffect_frame i w { popChoice s with cur := k }
  exact ⟨h1, h2, h3, h4, h5, h6⟩

/-- A step that answers next is one of these events. -/
theorem stepAt_event {c : Config.Params} {s t : State} (h : stepAt c s = .next t) : StepEvent c s t := by
  obtain ⟨hnone, rfl⟩ | ⟨ch, hch, hperf⟩ := stepAt_cases h
  · have hs : t.sched = [] := by
      cases hs : t.sched with
      | nil => rfl
      | cons ch sch => simp [nextChoice, hs] at hnone
    exact .quiet ⟨rfl, rfl, rfl, rfl, rfl, by rw [hs]; rfl⟩ rfl
  obtain rfl | ⟨rfl, rfl⟩ | ⟨rfl, rfl⟩ | ⟨rfl, hr, rfl⟩ | ⟨r, rest, i, rfl, hready, hq, hdec, hex⟩ |
    ⟨k, w, i, rfl, hr, hw, hdec, hex⟩ := perform_cases hperf
  · exact .quiet ⟨rfl, rfl, rfl, rfl, rfl, rfl⟩ rfl
  · exact .reset hch rfl
  · exact .release rfl
  · obtain ⟨he, -⟩ | ⟨x, rest, r, hs, hx, he⟩ := deliver_cases (popChoice s)
    · rw [he]
      exact .quiet ⟨rfl, rfl, rfl, rfl, rfl, rfl⟩ rfl
    · exact .deliver hs hx he
  · obtain ⟨t', x, ht, hin, hx, ha, hreqs, hdel, hsched, hrst, hcfg, -⟩ :=
      accept_spec (s := { popChoice s with reqs := rest }) hdec
    obtain rfl : t = t' := Host.Outcome.next.inj (hex.symm.trans ht)
    exact .accept hch hready hq hdec hin hx ha hreqs hdel hsched hrst hcfg
  · have hi := decodeStage_code hdec
    rw [execAt_stage hi] at hex
    obtain ⟨w', ⟨hw', -⟩, -, -, rfl⟩ := exec_stage_next hi hex
    obtain rfl : w = w' := by simpa using hw.symm.trans hw'
    exact .advance hr hw hi (stageEffect_sameOutside i w s k) (stageEffect_inflight hi w _)

theorem StepEvent.sched {c : Config.Params} {s t : State} (h : StepEvent c s t) : t.sched = s.sched.tail := by
  cases h with
  | quiet hsame => exact hsame.sched
  | reset _ ht => rw [ht]; rfl
  | release ht => rw [ht]; rfl
  | deliver _ _ ht => rw [ht]; rfl
  | accept _ _ _ _ _ _ _ _ _ hsched => exact hsched
  | advance _ _ _ hsame => exact hsame.sched

/-! ## The invariant -/

/-- The invariant says nothing of the schedule, of whose turn it is and of the draws. -/
theorem Inv.congr {c : Config.Params} {s t : State} (h : Inv c s) (hsame : SameOutside s t)
    (hin : t.inflight = s.inflight) : Inv c t where
  room := hin ▸ h.room
  txns := hin ▸ h.txns
  reqs := hsame.reqs ▸ h.reqs
  delivered := hsame.delivered ▸ h.delivered
  inReset := by
    rw [hsame.rst, hsame.cfgOrder, hsame.cfgDim, hin]
    exact h.inReset

/-- Every unfinished transaction is live. -/
theorem Inv.live {c : Config.Params} {s : State} (h : Inv c s) {k : Nat} {w : Work}
    (hw : s.inflight[k]? = some (.hidx w none)) : w.Live c.dmax :=
  h.txns _ (List.mem_of_getElem? hw)

theorem StepEvent.inv {c : Config.Params} {s t : State} (h : Inv c s) (he : StepEvent c s t) : Inv c t := by
  cases he with
  | quiet hsame hin => exact h.congr hsame hin
  | reset _ ht =>
    subst ht
    exact ⟨Nat.zero_le _, nofun, h.reqs, h.delivered, fun _ => ⟨rfl, rfl, rfl⟩⟩
  | release ht =>
    subst ht
    exact ⟨h.room, h.txns, h.reqs, h.delivered, nofun⟩
  | @deliver x rest r hs hx ht =>
    subst ht
    have hroom := h.room
    have htxns := h.txns
    rw [hs] at hroom htxns
    refine ⟨(Nat.le_succ _).trans hroom, fun y hy => htxns y (List.mem_cons_of_mem _ hy), h.reqs, fun y hy => ?_,
      fun hr => ?_⟩
    · obtain hy | hy := List.mem_append.1 hy
      · exact h.delivered y hy
      · rw [List.mem_singleton.1 hy]
        exact ((htxns x List.mem_cons_self).gives hx).2
    · exact nomatch hs.symm.trans (h.inReset hr).2.2
  | accept _ hready hq _ hin hx _ hreqs hdel _ hrst =>
    obtain ⟨hr, hroom⟩ := reqReady_iff.1 hready
    refine ⟨?_, fun y hy => ?_, fun y hy => ?_, hdel ▸ h.delivered, fun ht => ?_⟩
    · rw [hin, List.length_append]
      exact hroom
    · rw [hin] at hy
      obtain hy | hy := List.mem_append.1 hy
      · exact h.txns y hy
      · rw [List.mem_singleton.1 hy]
        exact hx
    · exact h.reqs y (hq ▸ List.mem_cons_of_mem _ (hreqs ▸ hy))
    · exact nomatch hr.symm.trans (hrst.symm.trans ht)
  | @advance k w i hrst hw hi hsame hin =>
    refine ⟨?_, fun y hy => ?_, hsame.reqs ▸ h.reqs, hsame.delivered ▸ h.delivered, fun ht => ?_⟩
    · rw [hin, List.length_set]
      exact h.room
    · rw [hin] at hy
      obtain hy | rfl := List.mem_or_eq_of_mem_set hy
      · exact h.txns y hy
      · exact (stageTxn_sound hi (h.live hw) _).1
    · exact nomatch hrst.symm.trans (hsame.rst.symm.trans ht)

/-- Settles O27: nothing is in flight, offered or delivered. -/
theorem invariantHoldsAtReset : Obligations.InvariantHoldsAtReset :=
  fun _ => ⟨Nat.zero_le _, nofun, nofun, nofun, nofun⟩

/-- Settles O28: by the event that the step is. -/
theorem everyStepKeepsTheInvariant : Obligations.EveryStepKeepsTheInvariant := fun _ _ h hst =>
  (stepAt_event (step_eq_stepAt ▸ hst)).inv h

/-! ## No stop -/

theorem perform_advance_none {c : Config.Params} {s : State} {k : Nat}
    (h : ∀ w, s.inflight[k]? ≠ some (.hidx w none)) : perform c (execAt c) (.advance k) s = .next s := by
  have hadv : advanceTxn (execAt c) k s = .next s := by
    unfold advanceTxn
    split
    · next w hw => exact absurd hw (h w)
    · rfl
  simp [perform, hadv]

/-- Every event completes: a request has the length of the channel, and an unfinished transaction is live. -/
theorem perform_completes {c : Config.Params} {s : State} (h : Inv c s) (ch : Choice) :
    ∃ t, perform c (execAt c) ch s = .next t := by
  cases ch with
  | rst level => cases level <;> exact ⟨_, rfl⟩
  | deliver =>
    cases hr : s.rst with
    | true => exact ⟨_, perform_inReset hr nofun⟩
    | false => exact ⟨_, perform_deliver hr⟩
  | accept =>
    cases hready : s.reqReady c with
    | false => exact ⟨_, perform_accept_blocked (.inr hready)⟩
    | true =>
      cases hq : s.reqs with
      | nil => exact ⟨_, perform_accept_blocked (.inl hq)⟩
      | cons r rest =>
        obtain ⟨i, hdec⟩ := decodeRequest_of_length (h.reqs r (hq ▸ List.mem_cons_self))
        obtain ⟨t, -, ht, -⟩ := accept_spec (s := { s with reqs := rest }) hdec
        exact ⟨t, (perform_accept hready hq hdec).trans ht⟩
  | advance k =>
    cases hr : s.rst with
    | true => exact ⟨_, perform_inReset hr nofun⟩
    | false =>
      by_cases hw : ∃ w, s.inflight[k]? = some (.hidx w none)
      · obtain ⟨w, hw⟩ := hw
        have hl := h.live hw
        obtain ⟨i, hi⟩ := exists_stageOf hl.2.2.2.1
        exact ⟨_, (perform_advance hr hw (decodeStage_of_stageOf hi)).trans
          (execAt_live (s := { s with cur := k }) hw hl hi)⟩
      · exact ⟨_, perform_advance_none (not_exists.1 hw)⟩

theorem stepAt_completes {c : Config.Params} {s : State} (h : Inv c s) : ∃ t, stepAt c s = .next t := by
  unfold stepAt stepWith
  cases nextChoice s with
  | none => exact ⟨s, rfl⟩
  | some ch => exact perform_completes (h.congr (t := popChoice s) ⟨rfl, rfl, rfl, rfl, rfl, rfl⟩ rfl) ch

/-- Settles O29: the step completes, and the event that it is keeps the invariant. -/
theorem noBlockEverStops : Obligations.NoBlockEverStops := by
  intro c s h
  obtain ⟨t, ht⟩ := stepAt_completes h
  exact ⟨t, ht, (stepAt_event ht).inv h⟩

/-! ## CFG -/

/-- Settles O26: only two events touch CFG. -/
theorem onlyCfgwrAndResetChangeCfg : Obligations.OnlyCfgwrAndResetChangeCfg := by
  intro s t hst hne
  rw [step_eq_stepAt] at hst
  have unchanged : t.cfgOrder = s.cfgOrder → t.cfgDim = s.cfgDim → False := fun ho hd =>
    hne.elim (fun h => h ho) (fun h => h hd)
  cases stepAt_event hst with
  | quiet hsame => exact (unchanged hsame.cfgOrder hsame.cfgDim).elim
  | reset hch ht => exact .inl ⟨hch, by rw [ht]; rfl, by rw [ht]; rfl⟩
  | release ht => exact (unchanged (by rw [ht]; rfl) (by rw [ht]; rfl)).elim
  | deliver _ _ ht => exact (unchanged (by rw [ht]; rfl) (by rw [ht]; rfl)).elim
  | accept hch _ hq hdec _ _ _ _ _ _ _ hcfg =>
    obtain ⟨o, d, rfl, rfl, rfl⟩ | ⟨_, -, ho, hd⟩ := hcfg
    · exact .inr ⟨hch, _, _, hq, hdec⟩
    · exact (unchanged ho hd).elim
  | advance _ _ _ hsame => exact (unchanged hsame.cfgOrder hsame.cfgDim).elim

/-! ## Responses -/

/-- Requests to come, transactions in flight and responses delivered. -/
def State.total (s : State) : Nat := s.delivered.length + s.inflight.length + s.reqs.length

/-- Outside reset nothing is lost (rules R57 (4), R82). -/
theorem StepEvent.total {c : Config.Params} {s t : State} (he : StepEvent c s t)
    (hne : nextChoice s ≠ some (.rst true)) : t.total = s.total := by
  unfold State.total
  cases he with
  | quiet hsame hin => rw [hsame.delivered, hsame.reqs, hin]
  | reset hch => exact absurd hch hne
  | release ht => rw [ht]; rfl
  | deliver hs _ ht =>
    subst ht
    simp [hs]
    omega
  | accept _ _ hq _ hin _ _ hreqs hdel =>
    simp [hin, hdel, hq, hreqs]
    omega
  | advance _ _ _ hsame hin => rw [hsame.delivered, hsame.reqs, hin, List.length_set]

/-- Outside reset a complete response keeps its place and its value: deliveries only move it, acceptances append, and
a stage operation works where there is no response yet. -/
theorem StepEvent.final {c : Config.Params} {s t : State} (he : StepEvent c s t)
    (hne : nextChoice s ≠ some (.rst true)) {j : Nat} {r : Response} (hj : (responseLog s)[j]? = some (some r)) :
    (responseLog t)[j]? = some (some r) := by
  cases he with
  | quiet hsame hin =>
    rw [responseLog, hsame.delivered, hin]
    exact hj
  | reset hch => exact absurd hch hne
  | release ht =>
    rw [ht]
    exact hj
  | deliver hs hx ht =>
    have hlog : responseLog t = responseLog s := by simp [responseLog, ht, hs, hx]
    rw [hlog, hj]
  | @accept _ _ _ x _ _ _ _ hin _ _ _ hdel =>
    have hlog : responseLog t = responseLog s ++ [x.response] := by simp [responseLog, hin, hdel]
    rw [hlog, List.getElem?_append_left (List.getElem?_eq_some_iff.1 hj).1, hj]
  | @advance k w i _ hw _ hsame hin =>
    have hlog : responseLog t =
        (responseLog s).set (s.delivered.length + k) (stageTxn i w s.draws).response := by
      simp [responseLog, hin, hsame.delivered, List.map_set]
    have hplace : (responseLog s)[s.delivered.length + k]? = some none := by
      rw [responseLog, List.getElem?_append_right (by simp)]
      simp [hw, Txn.response]
    rw [hlog, List.getElem?_set_ne, hj]
    rintro rfl
    simp [hplace] at hj

/-- Settles O30: by the event that the step is. -/
theorem responsesAreFinalAndCounted : Obligations.ResponsesAreFinalAndCounted := by
  intro s t hst hne
  have he := stepAt_event (step_eq_stepAt ▸ hst)
  exact ⟨he.total hne, fun _ _ => he.final hne⟩

/-! ## Answers -/

/-- A step outside reset, as the answers of the transactions in flight see it. -/
inductive AnswerStep (c : Config.Params) (s t : State) : Prop
  | keep (hans : t.inflight.map Txn.answer = s.inflight.map Txn.answer) (hdel : t.delivered = s.delivered)
      (hreqs : t.reqs = s.reqs) (ho : t.cfgOrder = s.cfgOrder) (hd : t.cfgDim = s.cfgDim)
  | deliver {x : Txn} {rest : List Txn} {r : Response} (hs : s.inflight = x :: rest) (hin : t.inflight = rest)
      (hreqs : t.reqs = s.reqs) (ho : t.cfgOrder = s.cfgOrder) (hd : t.cfgDim = s.cfgDim)
      (hdel : t.delivered = s.delivered ++ [r]) (hr : r.Gives x.answer)
  | accept {r : Request} {rest : List Request} {i : Instr} {a : Answer} (hq : s.reqs = r :: rest)
      (hreqs : t.reqs = rest) (hdel : t.delivered = s.delivered) (hdec : decodeRequest c.dmax r = .ok i)
      (ha : acceptAnswer c.dmax s i = some a)
      (hans : t.inflight.map Txn.answer = s.inflight.map Txn.answer ++ [a]) (hcfg : CfgAfter i s t)

theorem StepEvent.answerStep {c : Config.Params} {s t : State} (h : Inv c s) (he : StepEvent c s t)
    (hne : nextChoice s ≠ some (.rst true)) : AnswerStep c s t := by
  cases he with
  | quiet hsame hin => exact .keep (by rw [hin]) hsame.delivered hsame.reqs hsame.cfgOrder hsame.cfgDim
  | reset hch => exact absurd hch hne
  | release ht =>
    subst ht
    exact .keep rfl rfl rfl rfl rfl
  | deliver hs hx ht =>
    subst ht
    exact .deliver hs rfl rfl rfl rfl rfl ((h.txns _ (hs ▸ List.mem_cons_self)).gives hx).1
  | accept _ _ hq hdec hin _ ha hreqs hdel _ _ hcfg =>
    exact .accept hq hreqs hdel hdec ha (by rw [hin, List.map_append, List.map_singleton]) hcfg
  | @advance k w i _ hw hi hsame hin =>
    refine .keep ?_ hsame.delivered hsame.reqs hsame.cfgOrder hsame.cfgDim
    have hans : (s.inflight.map Txn.answer)[k]? = some w.answer := by simp [hw, Txn.answer]
    obtain ⟨hk, hget⟩ := List.getElem?_eq_some_iff.1 hans
    rw [hin, List.map_set, (stageTxn_sound hi (h.live hw) _).2, ← hget, List.set_getElem_self]

/-- Settles O31: the step as the answers see it. -/
theorem everyStepKeepsTheAnswers : Obligations.EveryStepKeepsTheAnswers := by
  intro s t h hst hne
  cases (stepAt_event (step_eq_stepAt ▸ hst)).answerStep h hne with
  | keep hans hdel hreqs ho hd => exact .inl ⟨hans, hdel, hreqs, ho, hd⟩
  | deliver hs hin hreqs ho hd hdel hr => exact .inr (.inl ⟨_, _, _, hs, hin, hreqs, ho, hd, hdel, hr⟩)
  | accept hq hreqs hdel hdec ha hans => exact .inr (.inr ⟨_, _, _, _, hq, hreqs, hdel, hdec, ha, hans⟩)

end Sys2Proof.Machine
end

section
/-! Whole runs: every run without reset serves the requests in order (rules R57, R150), and a block left to itself with
a host that takes every response answers each request in a bounded number of steps (rule R207; log entry 4). -/

namespace Sys2Proof.Machine

variable {c : Config.Params}

/-! ## Runs -/

theorem coreRun_succ {M : Host.Core} {s u : M.State} (n : Nat) (h : M.step s = .next u) :
    M.run (n + 1) s = M.run n u := by
  rw [Host.Core.run, h]

theorem coreRun_succ_inv {M : Host.Core} {s t : M.State} {n : Nat} (h : M.run (n + 1) s = .next t) :
    ∃ u, M.step s = .next u ∧ M.run n u = .next t := by
  rw [Host.Core.run] at h
  split at h
  · next u hu => exact ⟨u, hu, h⟩
  · cases h
  · cases h

/-- A run whose first step is known goes on from there. -/
theorem run_succ {s u : State} (n : Nat) (h : stepAt c s = .next u) :
    Host.Core.run (blockCore c) (n + 1) s = Host.Core.run (blockCore c) n u :=
  coreRun_succ (M := blockCore c) n h

/-- A run that answers next took its first step. -/
theorem run_succ_inv {s t : State} {n : Nat} (h : Host.Core.run (blockCore c) (n + 1) s = .next t) :
    ∃ u, stepAt c s = .next u ∧ Host.Core.run (blockCore c) n u = .next t :=
  coreRun_succ_inv (M := blockCore c) h

/-- Without a change of `rst` in the schedule none comes next. -/
theorem nextChoice_ne_rst {s : State} (h : ∀ level, .rst level ∉ s.sched) (level : Bool) :
    nextChoice s ≠ some (.rst level) := by
  unfold nextChoice
  split
  · next ch sch hs =>
    rintro ⟨⟩
    exact h level (by simp [hs])
  · split
    · nofun
    · split
      · split <;> nofun
      · split <;> nofun

/-! ## Service in request order (rule R57) -/

/-- CFG after the commands of a list of requests: that of the last CFGWR (rule R160). -/
def configAfter (dmax : Nat) : BitVec 6 → BitVec 6 → List Request → BitVec 6 × BitVec 6
  | o, d, [] => (o, d)
  | o, d, r :: rs =>
    match decodeRequest dmax r with
    | .ok (.cfgwr o' d') => configAfter dmax o' d' rs
    | _ => configAfter dmax o d rs

/-- Serving one request more: its answer, then the others under the configuration it leaves. -/
theorem serve_cons {dmax : Nat} {r : Request} {i : Instr} {s t : State} {a : Answer} (rs : List Request)
    (hdec : decodeRequest dmax r = .ok i) (ha : acceptAnswer dmax s i = some a) (hcfg : CfgAfter i s t) :
    serve dmax s.cfgOrder s.cfgDim (r :: rs) = a :: serve dmax t.cfgOrder t.cfgDim rs ∧
      configAfter dmax s.cfgOrder s.cfgDim (r :: rs) = configAfter dmax t.cfgOrder t.cfgDim rs := by
  obtain ⟨o, d, rfl, ho, hd⟩ | ⟨l, rfl, ho, hd⟩ := hcfg
  · cases ha
    simp [serve, configAfter, hdec, ho, hd]
  · cases ha
    simp [serve, configAfter, hdec, ho, hd]

/-- From `s` to `t` the first `m` requests were taken and `out` was delivered, which gives the answers `a`; what is in
flight and what was taken is answered by `a` and what is in flight now. -/
structure Served (c : Config.Params) (s t : State) (m : Nat) (out : List Response) (a : List Answer) : Prop where
  le : m ≤ s.reqs.length
  reqs : t.reqs = s.reqs.drop m
  delivered : t.delivered = s.delivered ++ out
  gives : List.Forall₂ Response.Gives out a
  answers : s.inflight.map Txn.answer ++ serve c.dmax s.cfgOrder s.cfgDim (s.reqs.take m) =
    a ++ t.inflight.map Txn.answer
  cfg : (t.cfgOrder, t.cfgDim) = configAfter c.dmax s.cfgOrder s.cfgDim (s.reqs.take m)

/-- One step in front of a served run. -/
theorem AnswerStep.served {s u t : State} {m : Nat} {out : List Response} {a : List Answer} (hstep : AnswerStep c s u)
    (h : Served c u t m out a) : ∃ m out a, Served c s t m out a := by
  obtain ⟨hle, hreqs, hdel, hgives, hans, hcfg⟩ := h
  cases hstep with
  | keep hans' hdel' hreqs' ho hd =>
    rw [hreqs'] at hle hreqs
    rw [hans', ho, hd, hreqs'] at hans
    rw [ho, hd, hreqs'] at hcfg
    exact ⟨m, out, a, hle, hreqs, by rw [hdel, hdel'], hgives, hans, hcfg⟩
  | @deliver x rest r hs hin hreqs' ho hd hdel' hr =>
    rw [hreqs'] at hle hreqs
    rw [hin, ho, hd, hreqs'] at hans
    rw [ho, hd, hreqs'] at hcfg
    exact ⟨m, r :: out, x.answer :: a, hle, hreqs, by rw [hdel, hdel', List.append_assoc]; rfl, .cons hr hgives,
      by rw [hs, List.map_cons, List.cons_append, hans, List.cons_append], hcfg⟩
  | @accept r rest i a' hq hreqs' hdel' hdec ha hans' hcfg' =>
    obtain ⟨hserve, hafter⟩ := serve_cons (rest.take m) hdec ha hcfg'
    rw [hreqs'] at hle hreqs hans hcfg
    refine ⟨m + 1, out, a, ?_, ?_, by rw [hdel, hdel'], hgives, ?_, ?_⟩
    · rw [hq]
      exact Nat.succ_le_succ hle
    · rw [hq]
      exact hreqs
    · rw [hq, List.take_succ_cons, hserve, ← hans, hans', List.append_assoc]
      rfl
    · rw [hq, List.take_succ_cons, hafter]
      exact hcfg

/-- Every run without reset serves a first part of the requests. -/
theorem run_served : ∀ (n : Nat) {s t : State}, Inv c s → (∀ level, .rst level ∉ s.sched) →
    Host.Core.run (blockCore c) n s = .next t → ∃ m out a, Served c s t m out a
  | 0, s, t, _, _, hrun => by
    cases hrun
    exact ⟨0, [], [], Nat.zero_le _, rfl, (List.append_nil _).symm, .nil, List.append_nil _, rfl⟩
  | n + 1, s, t, h, hsched, hrun => by
    obtain ⟨u, hu, hrun⟩ := run_succ_inv hrun
    have he := stepAt_event hu
    have hsched' : ∀ level, .rst level ∉ u.sched := fun level hmem =>
      hsched level (List.mem_of_mem_tail (he.sched ▸ hmem))
    obtain ⟨m, out, a, hserved⟩ := run_served n (he.inv h) hsched' hrun
    exact (he.answerStep h (nextChoice_ne_rst hsched true)).served hserved

/-- Settles O32: an idle block has no answers in flight at the start. -/
theorem anyScheduleServesRequestsInOrder : Obligations.AnyScheduleServesRequestsInOrder := by
  intro c n s t _ h hidle hsched hrun
  obtain ⟨m, out, a, hle, hreqs, hdel, hgives, hans, -⟩ := run_served n h hsched hrun
  rw [hidle] at hans
  exact ⟨m, out, a, hle, hreqs, hdel, hgives, hans⟩

/-! ## The steps still to come in the model's own order (log entry 4) -/

/-- The stages from this one on, and the delivery. -/
def stageTodo : Stage → Nat
  | .val => 6
  | .ewr => 5
  | .gray => 4
  | .fcor => 3
  | .pack => 2
  | .done => 1

/-- The steps a transaction in flight still needs. -/
def Txn.todo : Txn → Nat
  | .hidx w none => stageTodo w.stg
  | .hidx _ (some _) => 1
  | .cfgwr _ => 1

/-- The steps a request needs, from its acceptance to its delivery. -/
def requestTodo (r : Request) : Nat := if r.op = 0#1 then 7 else 2

/-- The steps until everything in flight and offered is answered. -/
def State.todo (s : State) : Nat := (s.inflight.map Txn.todo).sum + (s.reqs.map requestTodo).sum

theorem stageTodo_pos (st : Stage) : 0 < stageTodo st := by
  cases st <;> decide

theorem stageTodo_le (st : Stage) : stageTodo st ≤ 6 := by
  cases st <;> decide

theorem Txn.todo_pos (x : Txn) : 0 < x.todo := by
  cases x with
  | cfgwr r => exact Nat.one_pos
  | hidx w o =>
    cases o with
    | none => exact stageTodo_pos w.stg
    | some r => exact Nat.one_pos

theorem Txn.todo_le (x : Txn) : x.todo ≤ 6 := by
  cases x with
  | cfgwr r => exact (by decide : 1 ≤ 6)
  | hidx w o =>
    cases o with
    | none => exact stageTodo_le w.stg
    | some r => exact (by decide : 1 ≤ 6)

theorem requestTodo_le (r : Request) : requestTodo r ≤ 7 := by
  unfold requestTodo
  split <;> decide

/-- A stage operation leaves less to do. -/
theorem stageTxn_todo {i : Instr} {w : Work} (hi : stageOf i = some w.stg) (n : Nat) :
    (stageTxn i w n).todo < stageTodo w.stg := by
  cases i with
  | hidx lanes => cases hi
  | cfgwr order dim => cases hi
  | val =>
    rw [← Option.some.inj hi, stageTxn]
    split
    · exact (by decide : 1 < 6)
    · exact (by decide : 5 < 6)
  | ewr => rw [← Option.some.inj hi]; exact (by decide : 4 < 5)
  | gray => rw [← Option.some.inj hi]; exact (by decide : 3 < 4)
  | fcor => rw [← Option.some.inj hi]; exact (by decide : 2 < 3)
  | pack => rw [← Option.some.inj hi]; exact (by decide : 1 < 2)

/-- So does an acceptance: a CFGWR is complete, and a HIDX needs at most five stages and its delivery. -/
theorem accept_todo {r : Request} {i : Instr} {s : State} (hdec : decodeRequest c.dmax r = .ok i) :
    ∃ t x, execAt c i s = .next t ∧ t.inflight = s.inflight ++ [x] ∧ t.reqs = s.reqs ∧ t.rst = s.rst ∧
      x.todo < requestTodo r := by
  obtain ⟨-, ⟨ho, rfl⟩ | ⟨ho, rfl⟩⟩ := decodeRequest_cases hdec
  · obtain ⟨t, x, ht, hin, -, -, hreqs, -, -, hrst, -⟩ := accept_spec (s := s) hdec
    refine ⟨t, x, ht, hin, hreqs, hrst, ?_⟩
    rw [requestTodo, if_pos ho]
    exact Nat.lt_succ_of_le x.todo_le
  · refine ⟨_, _, rfl, rfl, rfl, rfl, ?_⟩
    rw [requestTodo, if_neg (by rw [ho]; decide)]
    exact Nat.lt_succ_self 1

/-- With an empty schedule a block that is not done takes a step that leaves less to do. -/
theorem own_step {s : State} (hc : c.wf) (h : Inv c s) (hr : s.rst = false) (hs : s.sched = [])
    (hbusy : ¬ (s.inflight = [] ∧ s.reqs = [])) :
    ∃ t, stepAt c s = .next t ∧ t.rst = false ∧ t.todo < s.todo := by
  unfold State.todo
  cases hi : s.inflight with
  | nil =>
    cases hq : s.reqs with
    | nil => exact absurd ⟨hi, hq⟩ hbusy
    | cons r rest =>
      obtain ⟨i, hdec⟩ := decodeRequest_of_length (h.reqs r (hq ▸ List.mem_cons_self))
      obtain ⟨t, x, ht, hin, hreqs, hrst, hlt⟩ := accept_todo (s := { s with reqs := rest }) hdec
      have hready : s.reqReady c = true := reqReady_iff.2 ⟨hr, by rw [hi]; exact hc.2.2⟩
      refine ⟨t, ?_, hrst.trans hr, ?_⟩
      · rw [stepAt_of_sched_nil hs (nextChoice_idle hs hr hi hq), perform_accept hready hq hdec, ht]
      · simp [hin, hreqs, hi]
        omega
  | cons x rest =>
    cases hx : x.response with
    | some r =>
      refine ⟨s.deliver, ?_, ?_, ?_⟩
      · rw [stepAt_of_sched_nil hs (nextChoice_finished hs hr hi hx), perform_deliver hr]
      · rw [deliver_of_complete hi hx]
        exact hr
      · have hpos := x.todo_pos
        simp [deliver_of_complete hi hx]
        omega
    | none =>
      obtain ⟨w, rfl⟩ : ∃ w, x = .hidx w none := by
        cases x with
        | cfgwr r => cases hx
        | hidx w o => exact ⟨w, congrArg _ hx⟩
      have hw : s.inflight[0]? = some (.hidx w none) := by rw [hi]; rfl
      have hl := h.live hw
      obtain ⟨i, hst⟩ := exists_stageOf hl.2.2.2.1
      refine ⟨stageEffect i w { s with cur := 0 }, ?_, ?_, ?_⟩
      · rw [stepAt_of_sched_nil hs (nextChoice_unfinished hs hr hi hx),
          perform_advance hr hw (decodeStage_of_stageOf hst), execAt_live hw hl hst]
      · rw [(stageEffect_frame i w _).2.2.1]
        exact hr
      · have hlt := stageTxn_todo hst s.draws
        rw [stageEffect_inflight hst, (stageEffect_frame i w _).2.2.2.1]
        simp [hi, Txn.todo]
        exact hlt

/-- Left to itself the block gets done, in as many steps as there are to do at most. -/
theorem own_run (hc : c.wf) {s : State} (h : Inv c s) (hr : s.rst = false) (hs : s.sched = []) :
    ∃ n t, n ≤ s.todo ∧ Host.Core.run (blockCore c) n s = .next t ∧ t.inflight = [] ∧ t.reqs = [] ∧
      t.total = s.total := by
  induction hk : s.todo using Nat.strong_induction_on generalizing s with
  | _ k ih =>
    subst hk
    by_cases hdone : s.inflight = [] ∧ s.reqs = []
    · exact ⟨0, s, Nat.zero_le _, rfl, hdone.1, hdone.2, rfl⟩
    · obtain ⟨u, hu, hr', hlt⟩ := own_step hc h hr hs hdone
      have he := stepAt_event hu
      have hs' : u.sched = [] := by rw [he.sched, hs, List.tail_nil]
      obtain ⟨n, t, hn, hrun, hin, hreqs, htotal⟩ := ih u.todo hlt (he.inv h) hr' hs' rfl
      have hne := nextChoice_ne_rst (s := s) (by simp [hs]) true
      exact ⟨n + 1, t, by omega, (run_succ n hu).trans hrun, hin, hreqs, htotal.trans (he.total hne)⟩

theorem State.todo_le (s : State) : s.todo ≤ 6 * s.inflight.length + 7 * s.reqs.length := by
  have htxns : (s.inflight.map Txn.todo).sum ≤ (s.inflight.map Txn.todo).length • 6 :=
    List.sum_le_card_nsmul _ _ (by simp [Txn.todo_le])
  have hreqs : (s.reqs.map requestTodo).sum ≤ (s.reqs.map requestTodo).length • 7 :=
    List.sum_le_card_nsmul _ _ (by simp [requestTodo_le])
  simp only [List.length_map, smul_eq_mul] at htxns hreqs
  unfold State.todo
  omega

/-- Settles O33: the steps to do are within the bound, and nothing is lost on the way. -/
theorem everyRequestIsAnswered : Obligations.EveryRequestIsAnswered := by
  intro c s hc h hr hs
  obtain ⟨n, t, hn, hrun, hin, hreqs, htotal⟩ := own_run hc h hr hs
  refine ⟨n, t, hn.trans s.todo_le, hrun, hin, hreqs, ?_⟩
  simpa [State.total, hin, hreqs] using htotal

/-! ## The pseudo-instruction (rules R85, R203) -/

/-- The two requests of HILBERT_INDEX. -/
theorem hilbertRequests_eq (dmax : Nat) (xs : List Word) (order dim : BitVec 6) :
    Asm.hilbertRequests dmax xs order dim =
      [{ op := 1#1, data := cfgWord order dim :: List.replicate (dmax - 1) 0 },
        { op := 0#1, data := xs ++ List.replicate (dmax - xs.length) 0 }] := rfl

/-- Served in order, they are the check of the pair and the point under that pair. -/
theorem serve_hilbertRequests {dmax : Nat} {xs : List Word} (hmin : 1 ≤ dmax) (hl : xs.length ≤ dmax)
    (o d order dim : BitVec 6) :
    serve dmax o d (Asm.hilbertRequests dmax xs order dim) =
        [cfgwrAnswer dmax order dim, hidxAnswer dmax order dim (xs ++ List.replicate (dmax - xs.length) 0)] ∧
      configAfter dmax o d (Asm.hilbertRequests dmax xs order dim) = (order, dim) := by
  simp [hilbertRequests_eq, serve, configAfter, decodeRequest, Nat.sub_add_cancel hmin, Nat.add_sub_cancel' hl]

/-- Settles O34: a CFGWR needs two steps and a HIDX seven, and a run that gets done has served both. -/
theorem pseudoInstructionAnswersThePoint : Obligations.PseudoInstructionAnswersThePoint := by
  intro c s xs order dim hc h hr hs hidle hl hq
  have htodo : s.todo = 9 := by rw [State.todo, hidle, hq]; rfl
  obtain ⟨n, t, hn, hrun, hin, hreqs, -⟩ := own_run hc h hr hs
  obtain ⟨m, out, a, -, hdrop, hdel, hgives, hans, hcfg⟩ := run_served n h (by simp [hs]) hrun
  have hall : s.reqs.take m = s.reqs := List.take_of_length_le (List.drop_eq_nil_iff.1 (hdrop.symm.trans hreqs))
  obtain ⟨hserve, hafter⟩ :=
    serve_hilbertRequests (by have := hc.1; omega) hl s.cfgOrder s.cfgDim order dim
  rw [hall, hq, hserve, hidle, hin] at hans
  rw [hall, hq, hafter] at hcfg
  obtain ⟨ho, hd⟩ := Prod.mk.inj hcfg
  obtain rfl : _ = a := hans.trans (List.append_nil a)
  obtain _ | ⟨h1, _ | ⟨h2, _ | _⟩⟩ := hgives
  exact ⟨n, t, _, _, htodo ▸ hn, hrun, hin, hreqs, ho, hd, hdel, h1, h2⟩

end Sys2Proof.Machine
end

section
/-! The five stage operations, one after the other (rules R100 to R145): what each makes of its working copy, what it
leaves unchanged, and where it is refused. -/

namespace Sys2Proof.Machine

variable {s : State} {w : Work}

/-! ## The state a stage operation answers -/

/-- In its domain a transform stage that hands over answers the state with the new working copy in place. -/
theorem exec_transform {i : Instr} {st : Stage} (hi : stageOf i = some st) (h : AtStage s st w) (hd : InDomain w) :
    exec i s = .next (stageEffect i w s) :=
  exec_stage_of hi h hd.1 fun _ => hd.2

/-! ## VAL -/

theorem oorMask_getD_of_length {i : Nat} (hc : ValidConfig w.x.length w.ord w.dim) (hl : w.oor.length = w.x.length) :
    (oorMask w).getD i false = true ↔ i < w.dim.toNat ∧ 2 ^ w.ord.toNat ≤ (laneAt w.x i).toNat := by
  obtain ⟨-, -, hlanes, -⟩ := hc
  rw [oorMask_getD]
  exact ⟨And.right, fun h => ⟨by omega, h⟩⟩

/-- Settles O10: the mask names an offender exactly when the point is invalid, and VAL then raises OOR. -/
theorem valExaminesEveryLane : Obligations.ValExaminesEveryLane := by
  intro s w h hc hl
  have hexec : exec .val s = .next (valStage w s) := exec_stage_of rfl h hc fun hne => absurd rfl hne
  have hany := oorMask_any_iff w (hl ▸ hc.2.2.1)
  constructor
  · intro hp
    have hnone : (oorMask w).any id = false := by simpa using fun h => hany.1 h hp
    rw [hexec, valStage_pass hnone, oorMask_eq_noOor w hnone, hl]
    rfl
  · intro hp
    rw [hexec, valStage_report (hany.2 hp)]
    exact ⟨raisedResponse s { w with oor := oorMask w } errOOR, s.draws + 1, rfl, rfl, ⟨s.draws, rfl⟩,
      (oorMask_length w).trans hl, fun _ => oorMask_getD_of_length hc hl⟩

/-! ## EWR -/

/-- Settles O11: `ewr_spec`, its rounds written as one fold. -/
theorem ewrIsItsRoundsOfVisits : Obligations.EwrIsItsRoundsOfVisits := by
  intro s w h hd
  obtain ⟨hx, -, hidx, hord, hdim, herr, hoor, hstg⟩ := ewr_spec hd.1.1 hd.1.order_le
  exact ⟨ewr w, exec_transform (i := .ewr) rfl h hd, hx.trans (roundsFrom_eq _ _ _), hstg, hidx, hord, hdim, herr,
    hoor⟩

/-- EWR leaves the lanes from DIM on alone (rule R105 (d)). -/
theorem ewr_spare (h : InDomain w) {i : Nat} (hi : w.dim.toNat ≤ i) : laneAt (ewr w).x i = laneAt w.x i := by
  obtain ⟨hx, -⟩ := ewr_spec h.1.1 h.1.order_le
  have hdim := h.1.2.1
  rw [hx, roundsFrom_spare (by omega) _ _ _ hi]

/-- Settles O12: one round by its visits, the whole stage by its rounds. -/
theorem ewrChangesOnlyLowBits : Obligations.EwrChangesOnlyLowBits := by
  refine ⟨fun w k i b hk hq hb => ?_, fun w h => ⟨fun i b hb => ?_, ewr_validPoint h, ewr_length h,
    fun i hi => ewr_spare h hi⟩⟩
  · rw [(ewrRound_spec hk hq).1, visitLanes_bits hb]
  · obtain ⟨hx, -⟩ := ewr_spec h.1.1 h.1.order_le
    rw [hx, roundsFrom_bits _ _ _ _ _ hb]

/-! ## EWR backwards (rule R105 (e)) -/

/-- The visits of one round in the opposite order undo it. -/
theorem visitLanes_reverse (k : Nat) (is : List Nat) : ∀ {x : List Word}, (∀ i ∈ is, i < x.length) →
    visitLanes k is (visitLanes k is.reverse x) = x := by
  induction is with
  | nil => intro x _; rfl
  | cons i is ih =>
    intro x h
    have hi : i < (visitLanes k is.reverse x).length := by
      rw [visitLanes_length]
      exact h i List.mem_cons_self
    have hlast : visitLanes k (i :: is).reverse x = visitByBit k (visitLanes k is.reverse x) i := by
      simp [visitLanes]
    rw [hlast]
    show visitLanes k is (visitByBit k (visitByBit k (visitLanes k is.reverse x) i) i) = x
    rw [visitByBit_involutive k hi]
    exact ih fun j hj => h j (List.mem_cons_of_mem _ hj)

/-- The rounds of bits 1 up to `k`, each backwards. -/
def roundsBack (dim : Nat) : Nat → List Word → List Word
  | 0, x => x
  | k + 1, x => visitLanes (k + 1) (List.range dim).reverse (roundsBack dim k x)

theorem roundsBack_length (dim : Nat) : ∀ (k : Nat) (x : List Word), (roundsBack dim k x).length = x.length
  | 0, _ => rfl
  | k + 1, x => (visitLanes_length _ _ _).trans (roundsBack_length dim k x)

theorem roundsFrom_roundsBack {dim : Nat} : ∀ (k : Nat) {x : List Word}, dim ≤ x.length →
    roundsFrom dim k (roundsBack dim k x) = x
  | 0, _, _ => rfl
  | k + 1, x, h => by
    have hround := visitLanes_reverse (k + 1) (List.range dim) (x := roundsBack dim k x) fun i hi => by
      rw [roundsBack_length]
      exact lt_of_lt_of_le (List.mem_range.1 hi) h
    rw [roundsBack, roundsFrom, hround, roundsFrom_roundsBack k h]

theorem roundsBack_roundsFrom {dim : Nat} : ∀ (k : Nat) {x : List Word}, dim ≤ x.length →
    roundsBack dim k (roundsFrom dim k x) = x
  | 0, _, _ => rfl
  | k + 1, x, h => by
    have hround := visitLanes_reverse (k + 1) (List.range dim).reverse (x := x) fun i hi =>
      lt_of_lt_of_le (List.mem_range.1 (List.mem_reverse.1 hi)) h
    rw [List.reverse_reverse] at hround
    rw [roundsFrom, roundsBack, roundsBack_roundsFrom k (by rw [visitLanes_length]; exact h), hround]

/-- The working copy that EWR turns into the point of `v`. -/
def ewrBack (v : Work) : Work := { v with x := roundsBack v.dim.toNat (v.ord.toNat - 1) v.x }

/-- The rounds backwards change no bit from ORDER-1 on, because the rounds do not. -/
theorem ewrBack_inDomain {v : Work} (h : InDomain v) : InDomain (ewrBack v) := by
  have hlen : (ewrBack v).x.length = v.x.length := roundsBack_length _ _ _
  refine ⟨hlen ▸ h.1, h.2.of_bits fun i _ b hb => ?_⟩
  rw [← roundsFrom_bits v.dim.toNat (v.ord.toNat - 1) b (ewrBack v).x i (by omega)]
  exact congrArg (fun x => (laneAt x i).getLsbD b) (roundsFrom_roundsBack _ h.1.2.2.1)

theorem ewr_ewrBack {v : Work} (h : InDomain v) : (ewr (ewrBack v)).x = v.x := by
  have hd := ewrBack_inDomain h
  obtain ⟨hx, -⟩ := ewr_spec hd.1.1 hd.1.order_le
  exact hx.trans (roundsFrom_roundsBack _ h.1.2.2.1)

/-- Settles O13: a visit is its own inverse, and EWR is undone by its rounds backwards. -/
theorem ewrIsOneToOneOntoValidPoints : Obligations.EwrIsOneToOneOntoValidPoints := by
  refine ⟨fun w k i hk hq hp hi => ?_, fun w v hw hv ho hd hl hx => ?_, fun v hv => ?_⟩
  · have hlow : w.p = lowMask k := by
      rw [hp, hq]
      exact bitMask_sub_one hk
    obtain ⟨hq', hp', -⟩ := ewrVisit_other w i
    rw [ewrVisit_x hk (hq'.trans hq) (hp'.trans hlow), ewrVisit_x hk hq hlow, visitByBit_involutive k hi]
  · obtain ⟨hwx, -⟩ := ewr_spec hw.1.1 hw.1.order_le
    obtain ⟨hvx, -⟩ := ewr_spec hv.1.1 hv.1.order_le
    rw [← roundsBack_roundsFrom (w.ord.toNat - 1) hw.1.2.2.1, ← hwx, hx, hvx, ho, hd,
      roundsBack_roundsFrom _ hv.1.2.2.1]
  · exact ⟨ewrBack v, ewrBack_inDomain hv, rfl, rfl, roundsBack_length _ _ _, ewr_ewrBack hv⟩

/-! ## EWR in its finer steps (rules R26, R103, R150) -/

/-- EWR under DIM = `dim` is in the round of bit `k`, about to visit lane `j`, and holds the point `x`. -/
structure EwrAt (dim : BitVec 6) (k j : Nat) (x : List Word) (v : Work) : Prop where
  q : v.q = bitMask k
  lane : v.lane.toNat = j
  x_eq : v.x = x
  dim_eq : v.dim = dim

/-- What a finer step does to the point and to DIM, wherever it is in the round. -/
theorem ewrStep_point {dim : BitVec 6} {k j : Nat} {x : List Word} {v : Work} (hk : k < 32)
    (h : EwrAt dim k j x v) : (ewrStep v).x = visitByBit k x j ∧ (ewrStep v).dim = dim := by
  obtain ⟨hq, rfl, rfl, rfl⟩ := h
  have hp : v.q - 1 = lowMask k := by rw [hq, bitMask_sub_one hk]
  have hx := ewrVisit_x (w := { v with p := v.q - 1 }) hk hq hp v.lane.toNat
  obtain ⟨-, -, -, -, hdim, -⟩ := ewrVisit_other { v with p := v.q - 1 } v.lane.toNat
  unfold ewrStep
  split
  · exact ⟨hx, hdim⟩
  · exact ⟨hx, hdim⟩

/-- A finer step within a round goes on to the next lane. -/
theorem ewrStep_within {dim : BitVec 6} {k j : Nat} {x : List Word} {v : Work} (hk : k < 32)
    (h : EwrAt dim k j x v) (hj : j + 1 < dim.toNat) :
    EwrAt dim k (j + 1) (visitByBit k x j) (ewrStep v) := by
  obtain ⟨hx, hdim⟩ := ewrStep_point hk h
  obtain ⟨hq, hlane, -, rfl⟩ := h
  have hlt := v.dim.isLt
  obtain ⟨hq', -⟩ := ewrVisit_other { v with p := v.q - 1 } v.lane.toNat
  have hcond : v.lane.toNat + 1 < v.dim.toNat := by omega
  refine ⟨?_, ?_, hx, hdim⟩
  · rw [ewrStep, if_pos hcond, ← hq]
    exact hq'
  · rw [ewrStep, if_pos hcond]
    show (v.lane + 1).toNat = j + 1
    rw [BitVec.toNat_add, hlane]
    exact Nat.mod_eq_of_lt (by show j + 1 < 64; omega)

/-- The finer step of the last lane goes on to the next round. -/
theorem ewrStep_last {dim : BitVec 6} {k j : Nat} {x : List Word} {v : Work} (hk : k + 1 < 32)
    (h : EwrAt dim (k + 1) j x v) (hj : j + 1 = dim.toNat) :
    EwrAt dim k 0 (visitByBit (k + 1) x j) (ewrStep v) := by
  obtain ⟨hx, hdim⟩ := ewrStep_point hk h
  obtain ⟨hq, hlane, -, rfl⟩ := h
  have hcond : ¬ v.lane.toNat + 1 < v.dim.toNat := by omega
  refine ⟨?_, by rw [ewrStep, if_neg hcond]; rfl, hx, hdim⟩
  rw [ewrStep, if_neg hcond, ← bitMask_shiftRight hk, ← hq]

theorem ewrSteps_add : ∀ (m n : Nat) (v : Work), ewrSteps (m + n) v = ewrSteps n (ewrSteps m v)
  | 0, n, v => by rw [Nat.zero_add, ewrSteps]
  | m + 1, n, v => by rw [Nat.add_right_comm, ewrSteps, ewrSteps, ewrSteps_add m n]

theorem ewrSteps_succ (n : Nat) (v : Work) : ewrSteps (n + 1) v = ewrStep (ewrSteps n v) := ewrSteps_add n 1 v

theorem visitLanes_range_succ (k j : Nat) (x : List Word) :
    visitLanes k (List.range (j + 1)) x = visitByBit k (visitLanes k (List.range j) x) j := by
  simp [visitLanes, List.range_succ]

/-- `j` finer steps into a round. -/
theorem ewrSteps_within {dim : BitVec 6} {k : Nat} {x : List Word} {v : Work} (hk : k < 32) (h : EwrAt dim k 0 x v) :
    ∀ j < dim.toNat, EwrAt dim k j (visitLanes k (List.range j) x) (ewrSteps j v)
  | 0, _ => h
  | j + 1, hj => by
    rw [ewrSteps_succ, visitLanes_range_succ]
    exact ewrStep_within hk (ewrSteps_within hk h j (by omega)) hj

/-- A whole round in finer steps. -/
theorem ewrSteps_round {dim : BitVec 6} {k : Nat} {x : List Word} {v : Work} (hk : k + 1 < 32) (hdim : 0 < dim.toNat)
    (h : EwrAt dim (k + 1) 0 x v) :
    EwrAt dim k 0 (visitLanes (k + 1) (List.range dim.toNat) x) (ewrSteps dim.toNat v) := by
  obtain ⟨j, hj⟩ : ∃ j, dim.toNat = j + 1 := ⟨dim.toNat - 1, by omega⟩
  rw [hj, ewrSteps_succ, visitLanes_range_succ]
  exact ewrStep_last hk (ewrSteps_within hk h j (by omega)) hj.symm

/-- `r` whole rounds: those left over make of the point what all rounds make of the first one. -/
theorem ewrSteps_rounds {dim : BitVec 6} {k : Nat} {x : List Word} {v : Work} (hdim : 0 < dim.toNat) :
    ∀ r, r + k < 32 → EwrAt dim (r + k) 0 x v →
      ∃ y, EwrAt dim k 0 y (ewrSteps (r * dim.toNat) v) ∧ roundsFrom dim.toNat k y = roundsFrom dim.toNat (r + k) x
  | 0, _, h => ⟨x, by rw [Nat.zero_mul]; rwa [Nat.zero_add] at h, by rw [Nat.zero_add]⟩
  | r + 1, hk, h => by
    rw [Nat.add_right_comm] at hk h ⊢
    obtain ⟨y, hy, hrounds⟩ := ewrSteps_rounds hdim r (by omega) (ewrSteps_round hk hdim h)
    refine ⟨y, ?_, hrounds⟩
    rw [Nat.add_mul, Nat.one_mul, Nat.add_comm, ewrSteps_add]
    exact hy

theorem ewrStart_at (h : InDomain w) : EwrAt w.dim (w.ord.toNat - 1) 0 w.x (ewrStart w) :=
  ⟨startMask_eq h.1.1 (by have := h.1.order_le; omega), rfl, rfl, rfl⟩

/-- Settles O14: `n` steps are `n / DIM` rounds and `n mod DIM` visits, and ORDER-1 rounds are the whole stage. -/
theorem ewrInFinerSteps : Obligations.EwrInFinerSteps := by
  intro w h
  have hmax := h.1.order_le
  have hdim : 0 < w.dim.toNat := by have := h.1.2.1; omega
  have hstart := ewrStart_at h
  refine ⟨fun n hn => ?_, ?_⟩
  · have hr : n / w.dim.toNat < w.ord.toNat - 1 := (Nat.div_lt_iff_lt_mul hdim).2 hn
    have hsplit : n / w.dim.toNat + (w.ord.toNat - 1 - n / w.dim.toNat) = w.ord.toNat - 1 := by omega
    obtain ⟨y, hy, -⟩ := ewrSteps_rounds hdim (n / w.dim.toNat) (by omega) (hsplit ▸ hstart)
    have hn : ewrSteps n (ewrStart w) =
        ewrSteps (n % w.dim.toNat) (ewrSteps (n / w.dim.toNat * w.dim.toNat) (ewrStart w)) := by
      rw [← ewrSteps_add, Nat.mul_comm, Nat.div_add_mod]
    have hk : w.ord.toNat - 1 - n / w.dim.toNat < 32 := lt_of_le_of_lt (Nat.sub_le _ _) (by omega)
    have hat := ewrSteps_within hk hy _ (Nat.mod_lt n hdim)
    rw [hn]
    exact ⟨hat.q, hat.lane⟩
  · obtain ⟨y, hy, hrounds⟩ := ewrSteps_rounds (k := 0) hdim (w.ord.toNat - 1) (by omega) hstart
    obtain ⟨hx, -⟩ := ewr_spec h.1.1 h.1.order_le
    refine ⟨?_, hy.q⟩
    rw [hy.x_eq, hx]
    exact hrounds

/-! ## GRAY, FCOR, PACK -/

/-- The lanes of GRAY in the valid domain (rules R111, R112). -/
theorem gray_lanes (h : InDomain w) : (gray w).x.length = w.x.length ∧
    (∀ i < w.dim.toNat, laneAt (gray w).x i = xorUpTo w.x i) ∧
      ∀ i, w.dim.toNat ≤ i → laneAt (gray w).x i = laneAt w.x i :=
  grayLanes_spec (by have := h.1.2.1; omega) h.1.2.2.1

/-- Settles O15: the pass over the lanes, by `gray_lanes`. -/
theorem grayIsTheRunningXor : Obligations.GrayIsTheRunningXor := by
  intro s w h hd
  obtain ⟨hlen, hxor, hspare⟩ := gray_lanes hd
  exact ⟨(gray w).x, exec_transform (i := .gray) rfl h hd, hlen, gray_validPoint hd, hxor, hspare⟩

/-- The lanes of FCOR in the valid domain (rules R120, R122). -/
theorem fcor_lanes (h : InDomain w) : (fcor w).x.length = w.x.length ∧
    (∀ i < w.dim.toNat, laneAt (fcor w).x i = laneAt w.x i ^^^ (fcor w).t) ∧
      ∀ i, w.dim.toNat ≤ i → laneAt (fcor w).x i = laneAt w.x i := by
  obtain ⟨-, hx, -⟩ := fcor_spec h
  rw [hx]
  exact fcorLanes_spec _ _ _ h.1.2.2.1

/-- FCOR writes the lanes, `t`, `Q` and STG only (rule R120). -/
theorem fcor_eq (h : InDomain w) :
    fcor w = { w with x := (fcor w).x, t := (fcor w).t, q := (fcor w).q, stg := .pack } := by
  obtain ⟨-, -, hp, hlane, hidx, hord, hdim, herr, hoor, hstg⟩ := fcor_spec h
  generalize fcor w = v at *
  cases v
  simp_all

/-- Settles O16: the term by the rounds of the first phase, the lanes by the second. -/
theorem fcorFoldsTheLastCoordinate : Obligations.FcorFoldsTheLastCoordinate := by
  intro s w h hd
  obtain ⟨ht, -⟩ := fcor_spec hd
  obtain ⟨hlen, hxor, hspare⟩ := fcor_lanes hd
  refine ⟨(fcor w).x, (fcor w).t, (fcor w).q, ?_, ht, ?_, hlen, fcor_validPoint hd, hxor, hspare⟩
  · rw [← fcor_eq hd]
    exact exec_transform (i := .fcor) rfl h hd
  · rw [toNat_lt_iff_bits]
    intro j hj
    rw [ht, foldBit_high _ hj]

/-- The bit of lane `i` in the group of bit position `b` (rule R131). -/
theorem packIndex_getLsbD_pos {ord dim b i : Nat} (x : List Word) (hm : ord * dim ≤ 64) (hb : b < ord) (hi : i < dim) :
    (packIndex ord dim x).getLsbD (b * dim + (dim - 1 - i)) = (laneAt x i).getLsbD b := by
  have hgroup : (b + 1) * dim ≤ ord * dim := Nat.mul_le_mul_right _ hb
  rw [Nat.add_mul] at hgroup
  have hlow : dim - 1 - i < dim := by omega
  rw [packIndex_getLsbD x hm, if_pos (by omega), Nat.mul_comm b, Nat.mul_add_div (by omega), Nat.div_eq_of_lt hlow,
    Nat.mul_add_mod, Nat.mod_eq_of_lt hlow, Nat.add_zero, show dim - 1 - (dim - 1 - i) = i by omega]

/-- Every position of the index is there (rules R9, R133). -/
theorem ValidConfig.size_le {dmax : Nat} {ord dim : BitVec 6} (h : ValidConfig dmax ord dim) :
    ord.toNat * dim.toNat ≤ 63 := by
  obtain ⟨-, -, -, hprod⟩ := h
  rw [Nat.mul_comm]
  omega

/-- Settles O17: the groups of `packIndex`, bit by bit. -/
theorem packPlacesEveryBit : Obligations.PackPlacesEveryBit := by
  intro s w h hd
  have hm : w.ord.toNat * w.dim.toNat ≤ 64 := by have := hd.1.size_le; omega
  refine ⟨finalResponse (pack w), exec_transform (i := .pack) rfl h hd, rfl, rfl,
    fun b hb i hi => packIndex_getLsbD_pos w.x hm hb hi, fun k hk => ?_, packIndex_lt w.x hm⟩
  exact (packIndex_getLsbD w.x hm k).trans (if_neg (Nat.not_lt.2 hk))

/-! ## Refusals, frame and privacy -/

/-- The domain of the operation of a stage (rules R143, U4). -/
def domainOf (st : Stage) : Work → Bool := if st = .val then configValid else stageDomain

theorem exec_eq_runStage {i : Instr} {st : Stage} (hi : stageOf i = some st) (s : State) :
    exec i s = runStage st (domainOf st) (stageEffect i) s := by
  cases i with
  | hidx lanes => cases hi
  | cfgwr order dim => cases hi
  | val => cases hi; rfl
  | ewr => cases hi; rfl
  | gray => cases hi; rfl
  | fcor => cases hi; rfl
  | pack => cases hi; rfl

/-- Under an invalid configuration no stage runs (rule R143). -/
theorem domainOf_of_not_validConfig (st : Stage) (h : ¬ ValidConfig w.x.length w.ord w.dim) :
    domainOf st w = false := by
  have hc : configValid w = false := by rwa [← Bool.not_eq_true, configValid_iff]
  unfold domainOf
  split
  · exact hc
  · rw [stageDomain, hc, Bool.false_and]

/-- Outside the valid domain no transform stage runs (U4). -/
theorem domainOf_of_not_inDomain {st : Stage} (hst : st ≠ .val) (h : ¬ InDomain w) : domainOf st w = false := by
  rwa [domainOf, if_neg hst, ← Bool.not_eq_true, stageDomain_iff]

/-- Settles O19: the three refusals of `runStage`. -/
theorem stagesAreRefusedOutOfPlace : Obligations.StagesAreRefusedOutOfPlace := by
  intro s i st hi
  rw [exec_eq_runStage hi]
  exact ⟨runStage_noTransaction, fun w hw => ⟨runStage_outOfOrder hw,
    fun hst hc => runStage_outside ⟨hw, hst⟩ (domainOf_of_not_validConfig st hc),
    fun hst hne hd => runStage_outside ⟨hw, hst⟩ (domainOf_of_not_inDomain hne hd)⟩⟩

/-- VAL writes ERR, OORLANES and STG of its working copy (rule R144). -/
theorem stageTxn_val (w : Work) (n : Nat) : ∃ e m st o,
    stageTxn .val w n = .hidx { w with err := e, oor := m, stg := st } o := by
  rw [stageTxn]
  split
  · exact ⟨_, _, _, _, rfl⟩
  · exact ⟨w.err, _, _, _, rfl⟩

/-- The first lane of GRAY is its own running XOR (rule R111). -/
theorem gray_lane_zero (h : InDomain w) : laneAt (gray w).x 0 = laneAt w.x 0 :=
  (gray_lanes h).2.1 0 (by have := h.1.2.1; omega)

/-- What the stage operation `i` leaves of the working copy `w` in `w'` (`10_state.md` section 2). -/
structure WorkFrame (i : Instr) (w w' : Work) : Prop where
  ord : w'.ord = w.ord
  dim : w'.dim = w.dim
  length : w'.x.length = w.x.length
  spare : ∀ k, w.dim.toNat ≤ k → laneAt w'.x k = laneAt w.x k
  idx : i ≠ .pack → w'.idx = w.idx
  flags : i ≠ .val → w'.err = w.err ∧ w'.oor = w.oor
  lanes : i = .val ∨ i = .pack → w'.x = w.x
  laneZero : i = .gray → laneAt w'.x 0 = laneAt w.x 0
  ewrScalars : i ≠ .ewr → w'.p = w.p ∧ w'.lane = w.lane
  scalars : i ≠ .ewr → i ≠ .fcor → w'.t = w.t ∧ w'.q = w.q

/-- The frame of each stage is read off from what the stage writes. -/
theorem stageTxn_frame {i : Instr} {st : Stage} (hi : stageOf i = some st) (hc : ValidConfig w.x.length w.ord w.dim)
    (hp : st ≠ .val → ValidPoint w.ord w.dim w.x) (n : Nat) :
    ∃ w' o, stageTxn i w n = .hidx w' o ∧ WorkFrame i w w' := by
  cases i with
  | hidx lanes => cases hi
  | cfgwr order dim => cases hi
  | val =>
    obtain ⟨e, m, st, o, hx⟩ := stageTxn_val w n
    exact ⟨_, o, hx, rfl, rfl, rfl, fun _ _ => rfl, fun _ => rfl, fun h => absurd rfl h, fun _ => rfl, fun _ => rfl,
      fun _ => ⟨rfl, rfl⟩, fun _ _ => ⟨rfl, rfl⟩⟩
  | ewr =>
    cases hi
    have hd : InDomain w := ⟨hc, hp nofun⟩
    obtain ⟨-, -, hidx, hord, hdim, herr, hoor, -⟩ := ewr_spec hd.1.1 hd.1.order_le
    exact ⟨_, _, rfl, hord, hdim, ewr_length hd, fun _ hk => ewr_spare hd hk, fun _ => hidx, fun _ => ⟨herr, hoor⟩,
      nofun, nofun, fun h => absurd rfl h, fun h => absurd rfl h⟩
  | gray =>
    cases hi
    have hd : InDomain w := ⟨hc, hp nofun⟩
    obtain ⟨hlen, -, hspare⟩ := gray_lanes hd
    exact ⟨_, _, rfl, rfl, rfl, hlen, hspare, fun _ => rfl, fun _ => ⟨rfl, rfl⟩, nofun, fun _ => gray_lane_zero hd,
      fun _ => ⟨rfl, rfl⟩, fun _ _ => ⟨rfl, rfl⟩⟩
  | fcor =>
    cases hi
    have hd : InDomain w := ⟨hc, hp nofun⟩
    obtain ⟨-, -, hp, hlane, hidx, hord, hdim, herr, hoor, -⟩ := fcor_spec hd
    obtain ⟨hlen, -, hspare⟩ := fcor_lanes hd
    exact ⟨_, _, rfl, hord, hdim, hlen, hspare, fun _ => hidx, fun _ => ⟨herr, hoor⟩, nofun, nofun,
      fun _ => ⟨hp, hlane⟩, fun _ h => absurd rfl h⟩
  | pack =>
    exact ⟨_, _, rfl, rfl, rfl, rfl, fun _ _ => rfl, fun h => absurd rfl h, fun _ => ⟨rfl, rfl⟩, fun _ => rfl, nofun,
      fun _ => ⟨rfl, rfl⟩, fun _ _ => ⟨rfl, rfl⟩⟩

/-- Settles O20: the frame of the state is that of `stageEffect`, that of the working copy is `stageTxn_frame`. -/
theorem stageFrame : Obligations.StageFrame := by
  intro s t i st hi ht
  obtain ⟨w, ⟨hw, -⟩, hc, hp, rfl⟩ := exec_stage_next hi ht
  obtain ⟨ho, hd, hrst, hreqs, hdel, hsched, hcur, hdraws⟩ := stageEffect_frame i w s
  obtain ⟨w', o, hx, hf⟩ := stageTxn_frame hi hc hp s.draws
  exact ⟨w, w', o, hw, hx ▸ stageEffect_inflight hi w s, ho, hd, hrst, hreqs, hdel, hsched, hcur, hf.ord, hf.dim,
    hf.length, hf.spare, hf.idx, fun hne => ⟨(hf.flags hne).1, (hf.flags hne).2, hdraws hne⟩, hf.lanes, hf.laneZero,
    hf.ewrScalars, hf.scalars⟩

/-- Settles O21: the outcome is `stageTxn` of the working copy and of the draws, in both states. -/
theorem stageReadsOnlyItsWorkingCopy : Obligations.StageReadsOnlyItsWorkingCopy := by
  intro s s' t i st hi hw hdraws ht
  obtain ⟨w, ⟨hcur, hst⟩, hc, hp, rfl⟩ := exec_stage_next hi ht
  have hcur' : s'.inflight[s'.cur]? = some (.hidx w none) := hw.symm.trans hcur
  refine ⟨_, exec_stage_of hi ⟨hcur', hst⟩ hc hp, ?_⟩
  obtain ⟨hlt, -⟩ := List.getElem?_eq_some_iff.1 hcur
  obtain ⟨hlt', -⟩ := List.getElem?_eq_some_iff.1 hcur'
  rw [stageEffect_inflight hi, stageEffect_inflight hi, List.getElem?_set_self hlt, List.getElem?_set_self hlt',
    hdraws]

end Sys2Proof.Machine
end

section
/-! The configuration check, the acceptance of a HIDX, and the answer of a HIDX as a function of its lanes and of CFG
(rules R9, R33, R39, R140, R141, R146, R174, R175). -/

namespace Sys2Proof.Machine

/-! ## The configuration check and the acceptance -/

/-- Settles O6: the two checks bit by bit, and the bounds of a valid configuration. -/
theorem configurationCheckIsExact : Obligations.ConfigurationCheckIsExact := fun dmax order dim =>
  ⟨ceBit_cfgErr_iff dmax order dim, udBit_cfgErr_iff dmax order dim, oorBit_cfgErr dmax order dim,
    cfgErr_eq_zero_iff dmax order dim, fun h => ⟨h.order_le, Nat.le_of_lt_succ h.2.2.2⟩⟩

/-- Settles O8: under a valid configuration HIDX enters its fresh working copy. -/
theorem hidxSamplesConfigurationAndLanes : Obligations.HidxSamplesConfigurationAndLanes := fun s lanes h =>
  ⟨newWork Config.dmax lanes s, _, execHidxAt_valid (c := Config.params) lanes h, rfl, rfl, rfl, rfl, rfl, rfl⟩

/-- ORDER = 0 and DIM = 0 are CE and UD (rule R39). -/
theorem not_validConfig_zero (dmax : Nat) : ¬ ValidConfig dmax 0 0 := fun h => absurd h.1 (by decide)

/-- Settles O24: the reset state by its fields, and a HIDX under 0, 0 by the configuration check. -/
theorem resetLeavesTheBlockUnconfigured : Obligations.ResetLeavesTheBlockUnconfigured := by
  refine ⟨rfl, rfl, rfl, rfl, rfl, reqReady_iff.2 ⟨rfl, params_wf.2.2⟩,
    fun dmax => ⟨(ceBit_cfgErr_iff _ _ _).2 (.inl rfl), (udBit_cfgErr_iff _ _ _).2 (.inl (by decide))⟩,
    fun s lanes ho hd => ?_⟩
  have hinvalid : ¬ ValidConfig Config.dmax s.cfgOrder s.cfgDim := by
    rw [ho, hd]
    exact not_validConfig_zero _
  have herr : cfgErr Config.dmax s.cfgOrder s.cfgDim = 0b101#3 := by
    rw [ho, hd]
    decide
  exact ⟨_, _, _, exec_hidx_invalid lanes hinvalid, herr, rfl⟩

/-! ## The answer of a HIDX, in its three cases (rules R140, R143, R144) -/

variable {dmax : Nat} {ord dim : BitVec 6} {lanes : List Word}

theorem hidxAnswer_of_invalidConfig (lanes : List Word) (h : ¬ ValidConfig dmax ord dim) :
    hidxAnswer dmax ord dim lanes = { err := cfgErr dmax ord dim, oor := noOor dmax, idx := none } := by
  rw [hidxAnswer, if_pos fun h0 => h ((cfgErr_eq_zero_iff _ _ _).1 h0)]

/-- The mask of a point names a lane exactly when the point is invalid. -/
theorem pointMask_any_iff (hl : lanes.length = dmax) (hc : ValidConfig dmax ord dim) :
    (oorMask (pointWork ord dim lanes)).any id = true ↔ ¬ ValidPoint ord dim lanes :=
  oorMask_any_iff _ (by simpa [pointWork, hl] using hc.2.2.1)

theorem hidxAnswer_of_invalidPoint (hl : lanes.length = dmax) (hc : ValidConfig dmax ord dim)
    (hp : ¬ ValidPoint ord dim lanes) : hidxAnswer dmax ord dim lanes =
      { err := 2#3, oor := oorMask (pointWork ord dim lanes), idx := none } := by
  rw [hidxAnswer, if_neg (not_not.2 ((cfgErr_eq_zero_iff _ _ _).2 hc)), if_pos ((pointMask_any_iff hl hc).2 hp), errOOR_eq]

theorem hidxAnswer_of_valid (hl : lanes.length = dmax) (hc : ValidConfig dmax ord dim)
    (hp : ValidPoint ord dim lanes) : hidxAnswer dmax ord dim lanes =
      { err := 0, oor := noOor dmax, idx := some (hilbertIndex ord dim lanes) } := by
  rw [hidxAnswer, if_neg (not_not.2 ((cfgErr_eq_zero_iff _ _ _).2 hc)),
    if_neg fun h => (pointMask_any_iff hl hc).1 h hp]

/-- Settles O35: each case of the answer has one error vector and one reason. -/
theorem errorVectorsAreTheFive : Obligations.ErrorVectorsAreTheFive := by
  intro dmax ord dim lanes hl
  obtain ⟨hlegal, hne⟩ := cfgErr_legal dmax ord dim
  have h02 : 0#3 ≠ 2#3 := by decide
  by_cases hc : ValidConfig dmax ord dim
  · by_cases hp : ValidPoint ord dim lanes
    · rw [hidxAnswer_of_valid hl hc hp]
      exact ⟨.inl rfl, noOor_length _, iff_of_false (by simp) h02, iff_of_false h02 fun h => h.2 hp,
        iff_of_true rfl ⟨hc, hp⟩, iff_of_true rfl rfl, hlegal, hne⟩
    · rw [hidxAnswer_of_invalidPoint hl hc hp]
      exact ⟨.inr (.inr (.inl rfl)), by simp [pointWork, hl], iff_of_true ((pointMask_any_iff hl hc).2 hp) rfl,
        iff_of_true rfl ⟨hc, hp⟩, iff_of_false nofun fun h => hp h.2, iff_of_false nofun h02.symm, hlegal, hne⟩
  · rw [hidxAnswer_of_invalidConfig lanes hc]
    have h0 : cfgErr dmax ord dim ≠ 0#3 := fun h => hc ((cfgErr_eq_zero_iff _ _ _).1 h)
    exact ⟨hlegal, noOor_length _, noOor_any_iff_cfgErr _ _ _, iff_of_false hne fun h => hc h.1,
      iff_of_false nofun fun h => hc h.1, iff_of_false nofun h0, hlegal, hne⟩

end Sys2Proof.Machine
end

section
/-! The transform as a function on points (rules R133, R136, R146 to R149): its range, that spare lanes do not matter,
that it is onto the range, and that consecutive indices are neighbouring cells. -/

namespace Sys2Proof.Machine.Curve

variable {ord dim : BitVec 6} {x y : List Word}

/-! ## The range -/

theorem hilbertIndex_lt (hc : ValidConfig x.length ord dim) (hp : ValidPoint ord dim x) :
    (hilbertIndex ord dim x).toNat < 2 ^ (ord.toNat * dim.toNat) := by
  rw [hilbertIndex_eq hc hp]
  exact packIndex_lt _ (hc.size_le.trans (by decide))

/-- Settles O37: PACK writes ORDER*DIM bits, at most 63. -/
theorem hilbertIndexIsInRange : Obligations.HilbertIndexIsInRange := by
  intro ord dim x hc hp
  have hlt := hilbertIndex_lt hc hp
  exact ⟨hlt, (toNat_lt_iff_bits _ _).1 hlt 63 hc.size_le⟩

/-! ## Positions of the index -/

/-- Bit position and lane of a place of the index (rule R131). -/
theorem exists_packPos {o d k : Nat} (hk : k < o * d) : ∃ b < o, ∃ i < d, k = b * d + (d - 1 - i) := by
  have hd : 0 < d := Nat.pos_of_mul_pos_left (Nat.zero_lt_of_lt hk)
  have hlow := Nat.mod_lt k hd
  have hsplit := Nat.div_add_mod k d
  refine ⟨k / d, (Nat.div_lt_iff_lt_mul hd).2 hk, d - 1 - k % d, by omega, ?_⟩
  rw [show d - 1 - (d - 1 - k % d) = k % d by omega, Nat.mul_comm, hsplit]

/-! ## Spare lanes -/

/-- The index depends on the lanes below DIM only: they have all the digits (rule R146). -/
theorem hilbertIndex_congr (hcx : ValidConfig x.length ord dim) (hcy : ValidConfig y.length ord dim)
    (hx : ValidPoint ord dim x) (h : ∀ i < dim.toNat, laneAt x i = laneAt y i) :
    hilbertIndex ord dim x = hilbertIndex ord dim y := by
  have hy : ValidPoint ord dim y := fun i hi => h i hi ▸ hx i hi
  have hbits : bitsOf dim.toNat x = bitsOf dim.toNat y := by
    funext k i
    by_cases hi : i < dim.toNat
    · rw [bitsOf_of_lt x k hi, bitsOf_of_lt y k hi, h i hi]
    · rw [bitsOf_narrow _ x k i (not_lt.1 hi), bitsOf_narrow _ y k i (not_lt.1 hi)]
  refine BitVec.eq_of_getLsbD_eq fun k _ => ?_
  by_cases hk : k < ord.toNat * dim.toNat
  · obtain ⟨b, hb, i, hi, rfl⟩ := exists_packPos hk
    rw [hilbertIndex_bit hcx hx hb hi, hilbertIndex_bit hcy hy hb hi, hbits]
  · rw [(toNat_lt_iff_bits _ _).1 (hilbertIndex_lt hcx hx) k (not_lt.1 hk),
      (toNat_lt_iff_bits _ _).1 (hilbertIndex_lt hcy hy) k (not_lt.1 hk)]

/-- The mask of VAL depends on the lanes below DIM only (rule R144). -/
theorem oorMask_pointWork_congr (hl : x.length = y.length) (h : ∀ i < dim.toNat, laneAt x i = laneAt y i) :
    oorMask (pointWork ord dim x) = oorMask (pointWork ord dim y) := by
  have hlen : (pointWork ord dim x).oor.length = (pointWork ord dim y).oor.length := by simp [pointWork, hl]
  rw [oorMask, oorMask, hlen]
  refine List.map_congr_left fun i _ => ?_
  show (decide (i < dim.toNat) && outOfRange ord (laneAt x i)) = (decide (i < dim.toNat) && outOfRange ord (laneAt y i))
  by_cases hi : i < dim.toNat
  · rw [h i hi]
  · rw [decide_eq_false hi, Bool.false_and, Bool.false_and]

/-- Settles O36: in each of the three cases of the answer only the lanes below DIM matter. -/
theorem spareLanesHaveNoEffect : Obligations.SpareLanesHaveNoEffect := by
  intro dmax ord dim x y hlx hly h
  by_cases hc : ValidConfig dmax ord dim
  · have hcx : ValidConfig x.length ord dim := hlx ▸ hc
    have hcy : ValidConfig y.length ord dim := hly ▸ hc
    by_cases hx : ValidPoint ord dim x
    · have hy : ValidPoint ord dim y := fun i hi => h i hi ▸ hx i hi
      rw [hidxAnswer_of_valid hlx hc hx, hidxAnswer_of_valid hly hc hy, hilbertIndex_congr hcx hcy hx h]
    · have hy : ¬ ValidPoint ord dim y := fun hy => hx fun i hi => h i hi ▸ hy i hi
      rw [hidxAnswer_of_invalidPoint hlx hc hx, hidxAnswer_of_invalidPoint hly hc hy,
        oorMask_pointWork_congr (hlx.trans hly.symm) h]
  · rw [hidxAnswer_of_invalidConfig x hc, hidxAnswer_of_invalidConfig y hc]

/-- Settles O40: by O36 the spare lane may be 0, and then by evaluation. -/
theorem firstOrderCurve : Obligations.FirstOrderCurve := by
  intro j
  have hspare (a b : Word) : hidxAnswer 3 1 2 [a, b, j] = hidxAnswer 3 1 2 [a, b, 0] := by
    refine spareLanesHaveNoEffect 3 1 2 _ _ rfl rfl fun i hi => ?_
    obtain rfl | rfl : i = 0 ∨ i = 1 := by have : i < 2 := hi; omega
    · rfl
    · rfl
  simp only [hspare]
  decide

/-! ## Onto the range (rule R136) -/

/-- The point of DIM lanes with these coordinates. -/
def pointOf {o d : Nat} (g : Fin d → Fin (2 ^ o)) : List Word := List.ofFn fun i => BitVec.ofNat 32 (g i)

@[simp] theorem pointOf_length {o d : Nat} (g : Fin d → Fin (2 ^ o)) : (pointOf g).length = d := by
  simp [pointOf]

theorem laneAt_pointOf {o d : Nat} (ho : o ≤ 32) (g : Fin d → Fin (2 ^ o)) (i : Fin d) :
    (laneAt (pointOf g) i).toNat = g i := by
  have hlt : (g i : Nat) < 2 ^ 32 := lt_of_lt_of_le (g i).isLt (Nat.pow_le_pow_right (by decide) ho)
  simpa [laneAt, pointOf] using hlt

theorem pointOf_validPoint {dmax : Nat} (hc : ValidConfig dmax ord dim) (g : Fin dim.toNat → Fin (2 ^ ord.toNat)) :
    ValidPoint ord dim (pointOf g) := by
  intro i hi
  rw [laneAt_pointOf (hc.order_le.trans (by decide)) g ⟨i, hi⟩]
  exact (g ⟨i, hi⟩).isLt

/-- The index of the point with these coordinates, as a number of the range. -/
def indexOf (hc : ValidConfig dim.toNat ord dim) (g : Fin dim.toNat → Fin (2 ^ ord.toNat)) :
    Fin (2 ^ (ord.toNat * dim.toNat)) :=
  ⟨(hilbertIndex ord dim (pointOf g)).toNat,
    hilbertIndex_lt ((pointOf_length g).symm ▸ hc) (pointOf_validPoint hc g)⟩

theorem indexOf_injective (hc : ValidConfig dim.toNat ord dim) : Function.Injective (indexOf hc) := by
  intro g h hgh
  have hval : (indexOf hc g).val = (indexOf hc h).val := by rw [hgh]
  have hlanes := hilbertIndexIsInjective ord dim (pointOf g) (pointOf h) ((pointOf_length g).symm ▸ hc) (by simp)
    (pointOf_validPoint hc g) (pointOf_validPoint hc h) (BitVec.eq_of_toNat_eq hval)
  funext i
  have ho := hc.order_le.trans (show 31 ≤ 32 by decide)
  exact Fin.ext (by rw [← laneAt_pointOf ho g i, ← laneAt_pointOf ho h i, hlanes i i.isLt])

/-- Settles O39: there are as many valid points of DIM lanes as numbers in the range, and the transform is injective. -/
theorem hilbertIndexIsOntoTheRange : Obligations.HilbertIndexIsOntoTheRange := by
  intro ord dim n hc hn
  have hcard : Fintype.card (Fin dim.toNat → Fin (2 ^ ord.toNat)) = Fintype.card (Fin (2 ^ (ord.toNat * dim.toNat))) := by
    simp [pow_mul]
  obtain ⟨-, hsurj⟩ := (Fintype.bijective_iff_injective_and_card _).2 ⟨indexOf_injective hc, hcard⟩
  obtain ⟨g, hg⟩ := hsurj ⟨n, hn⟩
  exact ⟨pointOf g, pointOf_length g, pointOf_validPoint hc g, congrArg Fin.val hg⟩

/-! ## Consecutive indices (rule R149) -/

/-- The digits of consecutive indices follow each other: the place where the carry ends is a bit position and a
lane. -/
theorem follows_of_succ (hcx : ValidConfig x.length ord dim) (hcy : ValidConfig y.length ord dim)
    (hx : ValidPoint ord dim x) (hy : ValidPoint ord dim y)
    (h : (hilbertIndex ord dim y).toNat = (hilbertIndex ord dim x).toNat + 1) :
    ∃ b ≤ ord.toNat - 1, ∃ p < dim.toNat, Follows dim.toNat (ord.toNat - 1) b p
      (pointDigit dim.toNat (ord.toNat - 1) false (bitsOf dim.toNat x))
      (pointDigit dim.toNat (ord.toNat - 1) false (bitsOf dim.toNat y)) := by
  obtain ⟨m, hzero, hone, hhigh, hlow⟩ := succ_bits (hilbertIndex ord dim x).toNat
  rw [← h] at hone hhigh hlow
  have hm : m < ord.toNat * dim.toNat := by
    by_contra hge
    have hclear := (toNat_lt_iff_bits _ _).1 (hilbertIndex_lt hcy hy) m (not_lt.1 hge)
    exact nomatch hone.symm.trans hclear
  obtain ⟨b, hb, p, hp, rfl⟩ := exists_packPos hm
  have dx {k i : Nat} (hk : k < ord.toNat) (hi : i < dim.toNat) := hilbertIndex_bit hcx hx hk hi
  have dy {k i : Nat} (hk : k < ord.toNat) (hi : i < dim.toNat) := hilbertIndex_bit hcy hy hk hi
  have above {k : Nat} (hk : b < k) : (b + 1) * dim.toNat ≤ k * dim.toNat := Nat.mul_le_mul_right _ hk
  have below {k : Nat} (hk : k < b) : (k + 1) * dim.toNat ≤ b * dim.toNat := Nat.mul_le_mul_right _ hk
  simp only [Nat.add_mul, Nat.one_mul] at above below
  refine ⟨b, by omega, p, hp, ⟨fun k hbk hk i hi => ?_, fun i hi => ?_, ?_, ?_, fun i hpi hi => ?_, fun k hk i hi => ?_⟩⟩
  · rw [← dx (by omega) hi, ← dy (by omega) hi]
    exact hhigh _ (by have := above hbk; omega)
  · rw [← dx hb (by omega), ← dy hb (by omega)]
    exact hhigh _ (by omega)
  · rw [← dx hb hp]
    exact hzero
  · rw [← dy hb hp]
    exact hone
  · rw [← dx hb hi, ← dy hb hi]
    exact hlow _ (by omega)
  · rw [← dx (by omega) hi, ← dy (by omega) hi]
    exact hlow _ (by have := below hk; omega)

/-- Points adjacent in their bits are neighbouring cells: the lane with the carry is one larger in one of them. -/
theorem Adjacent.neighbours {b q : Nat} (hx : ValidPoint ord dim x) (hy : ValidPoint ord dim y)
    (hq : q < dim.toNat) (h : Adjacent (ord.toNat - 1) b q (bitsOf dim.toNat x) (bitsOf dim.toNat y)) :
    Neighbours dim.toNat x y := by
  have zero {z : List Word} (hz : ValidPoint ord dim z) {k i : Nat} (hi : i < dim.toNat) (hk : ¬ k < ord.toNat) :
      (laneAt z i).getLsbD k = false := (toNat_lt_iff_bits _ _).1 (hz i hi) k (not_lt.1 hk)
  have hchange := h.change
  have hhigh : ∀ k > b, (laneAt x q).getLsbD k = (laneAt y q).getLsbD k := by
    intro k hk
    by_cases hko : k < ord.toNat
    · simpa only [bitsOf_of_lt _ _ hq] using h.high k hk (by omega)
    · rw [zero hx hq hko, zero hy hq hko]
  have hlow : ∀ k < b, (laneAt x q).getLsbD k = !(laneAt x q).getLsbD b ∧
      (laneAt y q).getLsbD k = (laneAt x q).getLsbD b := by
    intro k hk
    simpa only [bitsOf_of_lt _ _ hq] using h.low k hk
  rw [bitsOf_of_lt _ _ hq, bitsOf_of_lt _ _ hq] at hchange
  refine ⟨q, hq, fun i hi hne => ?_, ?_⟩
  · refine BitVec.eq_of_getLsbD_eq fun k _ => ?_
    by_cases hk : k < ord.toNat
    · simpa only [bitsOf_of_lt _ _ hi] using h.other k (by omega) i hne
    · rw [zero hx hi hk, zero hy hi hk]
  · cases hbit : (laneAt x q).getLsbD b with
    | false =>
      rw [hbit] at hchange hlow
      exact .inl (eq_succ_of_bits hbit hchange hhigh hlow)
    | true =>
      rw [hbit] at hchange hlow
      exact .inr (eq_succ_of_bits hchange hbit (fun k hk => (hhigh k hk).symm) fun k hk => (hlow k hk).symm)

/-- Settles O41: the curve is continuous (`adjacent_of_follows`); plain interleaving jumps from (0, 1) to (1, 0). -/
theorem consecutiveIndicesAreNeighbours : Obligations.ConsecutiveIndicesAreNeighbours := by
  refine ⟨fun ord dim x y hcx hl hx hy h => ?_, 1, 2, [0, 1], [1, 0], by decide⟩
  have hord := hcx.1
  have hdim := hcx.2.1
  obtain ⟨b, hb, p, hp, hfollows⟩ := follows_of_succ hcx (hl ▸ hcx) hx hy h
  obtain ⟨q, hq, hadj⟩ := adjacent_of_follows (by omega) _ _ _ _ (bitsOf_narrow _ x) (bitsOf_narrow _ y) b p hb hp
    hfollows
  exact hadj.neighbours hx hy hq

end Sys2Proof.Machine.Curve
end

section
/-! Three rows of the spec's enumeration of adjacent cells (rule R149; conflict C9). -/

namespace Sys2Proof.Machine

/-- Settles O42: the kernel evaluates the three rows, each over all pairs of adjacent cells of its configuration. -/
theorem averagedLocalityFails : Obligations.AveragedLocalityFails := by
  refine ⟨?_, ?_, ?_⟩
  · decide +kernel
  · decide +kernel
  · decide +kernel

end Sys2Proof.Machine
end
